-- ==== Sys2Proof/Word.lean ====
section
/-! DEFINITION. The value types every file shares: bus words, command words, pin samples, hands and directions
(spec 00 R12, R14; 30 R80). Positions, counts and times are mathematical integers, as rule R12 reads them. -/

namespace Sys2Proof

/-- A bus word, four direction flags `MF MB HF HB` (30 R81). -/
abbrev BusWord := BitVec 4

/-- A command word of format K (30 R84). -/
abbrev CommandWord := BitVec 32

/-- A pin sample of format P, `in_clk` above the four `in_data` lines (30 R80). -/
abbrev PinSample := BitVec 5

/-- The two clock hands (10 R20). -/
inductive Hand where
  | hour
  | minute
  deriving DecidableEq, Repr

/-- The other hand of the node. -/
def Hand.other : Hand → Hand
  | .hour => .minute
  | .minute => .hour

/-- A direction; Forward is encoded 1 and Backward 0 (00 R14). -/
inductive Direction where
  | forward
  | backward
  deriving DecidableEq, Repr

/-- `opp(d)`, the other direction (00 R14). -/
def Direction.opp : Direction → Direction
  | .forward => .backward
  | .backward => .forward

end Sys2Proof
end

