-- ==== Sys2Proof/Syntax.lean ====
section
/-! DEFINITION. The instructions: one constructor for each row of spec/opcode_table.json, and the packets that carry
their encodings (spec 30 R80, R86, R93). -/

namespace Sys2Proof

/-- The operations of the node, in the table's order. `a` and `b` are the 12-bit operand fields of 30 R86. -/
inductive Instr where
  /-- `DIFF from, to, dir`: `a` = from, `b` = to (40 R102). -/
  | diff (a b : Nat) (d : Direction)
  /-- `FLP width, dir`: `a` = fieldWidth (40 R104). -/
  | flp (a : Nat) (d : Direction)
  /-- `SDIR from, to`: `a` = from, `b` = to (40 R106). -/
  | sdir (a b : Nat)
  /-- `TICKI` (42 R138). -/
  | ticki
  /-- `PLAN h, dir` (41 R111). -/
  | plan (h : Hand) (d : Direction)
  /-- `STEPF h` (41 R114). -/
  | stepf (h : Hand)
  /-- `STEPB h` (41 R115). -/
  | stepb (h : Hand)
  /-- `TRY h` (41 R118). -/
  | tryStep (h : Hand)
  /-- `RSTO h` (41 R120). -/
  | rsto (h : Hand)
  /-- `RECAL h, target, off, dir`: `a` = target, `b` = steps_off (41 R122). -/
  | recal (h : Hand) (a b : Nat) (d : Direction)
  /-- `TICKP` (42 R137). -/
  | tickp
  /-- `DRAIN` (42 R139). -/
  | drain
  /-- `CSTART h` (44 R171). -/
  | cstart (h : Hand)
  /-- `CADV h` (44 R172). -/
  | cadv (h : Hand)
  /-- `CDRIFT h` (44 R180). -/
  | cdrift (h : Hand)
  /-- `BNOP`, word 0000 (43 R152). -/
  | bnop
  /-- `BMOV HB`, word 0001 (43 R153). -/
  | bmovHb
  /-- `BMOV HF`, word 0010 (43 R154). -/
  | bmovHf
  /-- `BHOME 0011` (43 R155). -/
  | bhome0011
  /-- `BMOV MB`, word 0100 (43 R156). -/
  | bmovMb
  /-- `BMOV HB,MB`, word 0101 (43 R157). -/
  | bmovHbMb
  /-- `BMOV HF,MB`, word 0110 (43 R158). -/
  | bmovHfMb
  /-- `BHOME 0111` (43 R159). -/
  | bhome0111
  /-- `BMOV MF`, word 1000 (43 R160). -/
  | bmovMf
  /-- `BMOV HB,MF`, word 1001 (43 R161). -/
  | bmovHbMf
  /-- `BMOV HF,MF`, word 1010 (43 R162). -/
  | bmovHfMf
  /-- `BHOME 1011` (43 R163). -/
  | bhome1011
  /-- `BHOME 1100` (43 R164). -/
  | bhome1100
  /-- `BHOME 1101` (43 R165). -/
  | bhome1101
  /-- `BHOME 1110` (43 R166). -/
  | bhome1110
  /-- `BHOME 1111` (43 R167). -/
  | bhome1111
  /-- A `SAMPLE` that shows a rising edge and so performs `EDGE w` (42 R131, R133). -/
  | sampleEdge (w : BusWord)
  /-- A `SAMPLE` without an edge, `c` the clock level it reads (42 R131). -/
  | sampleNoEdge (c : Bool) (w : BusWord)
  deriving DecidableEq, Repr

/-- An encoded instruction together with the place it is found at; "a decoder knows the format from the port the value
arrives at, never from the value" (30 R80). -/
inductive Packet where
  /-- Format K, at the command port. -/
  | command (w : CommandWord)
  /-- Format P, at the inbound bus pins. -/
  | sample (v : PinSample)
  /-- Format B, in the mailbox. -/
  | busWord (w : BusWord)
  deriving DecidableEq, Repr

/-- The commands, format K: what the host may issue (30 R86). -/
def Instr.isCommand : Instr → Bool
  | .diff _ _ _ | .flp _ _ | .sdir _ _ | .ticki | .plan _ _ | .stepf _ | .stepb _ | .tryStep _ | .rsto _
  | .recal _ _ _ _ | .tickp | .drain | .cstart _ | .cadv _ | .cdrift _ => true
  | .bnop | .bmovHb | .bmovHf | .bhome0011 | .bmovMb | .bmovHbMb | .bmovHfMb | .bhome0111 | .bmovMf | .bmovHbMf
  | .bmovHfMf | .bhome1011 | .bhome1100 | .bhome1101 | .bhome1110 | .bhome1111 => false
  | .sampleEdge _ | .sampleNoEdge _ _ => false

/-- The pin samples, format P (30 R80). -/
def Instr.isSample : Instr → Bool
  | .sampleEdge _ | .sampleNoEdge _ _ => true
  | .diff _ _ _ | .flp _ _ | .sdir _ _ | .ticki | .plan _ _ | .stepf _ | .stepb _ | .tryStep _ | .rsto _
  | .recal _ _ _ _ | .tickp | .drain | .cstart _ | .cadv _ | .cdrift _ => false
  | .bnop | .bmovHb | .bmovHf | .bhome0011 | .bmovMb | .bmovHbMb | .bmovHfMb | .bhome0111 | .bmovMf | .bmovHbMf
  | .bmovHfMf | .bhome1011 | .bhome1100 | .bhome1101 | .bhome1110 | .bhome1111 => false

end Sys2Proof
end

