-- ==== Sys2Proof/WellFormed.lean ====
section
/-! DEFINITION. Which instruction terms have an encoding: the operand fields `a` and `b` are 12-bit unsigned integers
(spec 30 R87). Whether an operand is in range for its operation is the operation's own check (40, 41). -/

namespace Sys2Proof

/-- A value that fits a 12-bit operand field (30 R86, R87). -/
def fits12 (n : Nat) : Bool := n < 2 ^ 12

/-- Every operand fits its field. -/
def Instr.wellFormed : Instr → Bool
  | .diff a b _ => fits12 a && fits12 b
  | .flp a _ => fits12 a
  | .sdir a b => fits12 a && fits12 b
  | .recal _ a b _ => fits12 a && fits12 b
  | .ticki | .plan _ _ | .stepf _ | .stepb _ | .tryStep _ | .rsto _ | .tickp | .drain | .cstart _ | .cadv _
  | .cdrift _ => true
  | .bnop | .bmovHb | .bmovHf | .bhome0011 | .bmovMb | .bmovHbMb | .bmovHfMb | .bhome0111 | .bmovMf | .bmovHbMf
  | .bmovHfMf | .bhome1011 | .bhome1100 | .bhome1101 | .bhome1110 | .bhome1111 => true
  | .sampleEdge _ | .sampleNoEdge _ _ => true

/-- Whether a `SAMPLE` term is the one the edge detector selects when the previous clock level is `prev`
(42 R131); every other instruction is selected without regard to it. -/
def Instr.selectedAt (prev : Bool) : Instr → Bool
  | .sampleEdge _ => !prev
  | .sampleNoEdge c _ => !(c && !prev)
  | .diff _ _ _ | .flp _ _ | .sdir _ _ | .ticki | .plan _ _ | .stepf _ | .stepb _ | .tryStep _ | .rsto _
  | .recal _ _ _ _ | .tickp | .drain | .cstart _ | .cadv _ | .cdrift _ => true
  | .bnop | .bmovHb | .bmovHf | .bhome0011 | .bmovMb | .bmovHbMb | .bmovHfMb | .bhome0111 | .bmovMf | .bmovHbMf
  | .bmovHfMf | .bhome1011 | .bhome1100 | .bhome1101 | .bhome1110 | .bhome1111 => true

end Sys2Proof
end

