-- ==== Sys2Proof/Decode.lean ====
section
/-! DEFINITION. Decoding of the three formats, total and rejecting by name, and the encoder written from the same layout
(spec 30 R80 to R92). -/

namespace Sys2Proof

/-- Why a command word decodes to no instruction (30 R88, R89). -/
inductive DecodeError where
  /-- `op = 0xF`. -/
  | illegalOp
  /-- `rsv` or a field the operation does not use is not zero. -/
  | reservedBits
  deriving DecidableEq, Repr

/-! Fields of a command word (30 R86). -/

/-- `op`, bits 31:28. -/
def opField (w : CommandWord) : Nat := w.toNat / 2 ^ 28
/-- `h`, bit 27. -/
def hField (w : CommandWord) : Nat := w.toNat / 2 ^ 27 % 2
/-- `d`, bit 26. -/
def dField (w : CommandWord) : Nat := w.toNat / 2 ^ 26 % 2
/-- `rsv`, bits 25:24. -/
def rsvField (w : CommandWord) : Nat := w.toNat / 2 ^ 24 % 4
/-- `b`, bits 23:12. -/
def bField (w : CommandWord) : Nat := w.toNat / 2 ^ 12 % 2 ^ 12
/-- `a`, bits 11:0. -/
def aField (w : CommandWord) : Nat := w.toNat % 2 ^ 12

/-- `h`: 0 selects the hour hand, 1 the minute hand (30 R87). -/
def handOf (n : Nat) : Hand := if n = 0 then .hour else .minute
/-- The `h` bit of a hand. -/
def handBit : Hand → Nat
  | .hour => 0
  | .minute => 1
/-- `d`: 1 Forward, 0 Backward (30 R87). -/
def dirOf (n : Nat) : Direction := if n = 0 then .backward else .forward
/-- The `d` bit of a direction. -/
def dirBit : Direction → Nat
  | .forward => 1
  | .backward => 0

/-- The instruction `i`, provided the bits the operation does not use are all zero (30 R88). -/
def ifZero (unused : Nat) (i : Instr) : Except DecodeError Instr :=
  if unused = 0 then .ok i else .error .reservedBits

/-- Decoding of a command word whose `op` is `op`, its fields given; the first argument of `ifZero` is the sum of the
fields the row leaves unused (30 R86, R88). -/
def decodeOp (op h d b a : Nat) : Except DecodeError Instr :=
  match op with
  | 0x0 => ifZero h (.diff a b (dirOf d))
  | 0x1 => ifZero (h + b) (.flp a (dirOf d))
  | 0x2 => ifZero (h + d) (.sdir a b)
  | 0x3 => ifZero (h + d + b + a) .ticki
  | 0x4 => ifZero (b + a) (.plan (handOf h) (dirOf d))
  | 0x5 => ifZero (d + b + a) (.stepf (handOf h))
  | 0x6 => ifZero (d + b + a) (.stepb (handOf h))
  | 0x7 => ifZero (d + b + a) (.tryStep (handOf h))
  | 0x8 => ifZero (d + b + a) (.rsto (handOf h))
  | 0x9 => ifZero 0 (.recal (handOf h) a b (dirOf d))
  | 0xA => ifZero (h + d + b + a) .tickp
  | 0xB => ifZero (h + d + b + a) .drain
  | 0xC => ifZero (d + b + a) (.cstart (handOf h))
  | 0xD => ifZero (d + b + a) (.cadv (handOf h))
  | 0xE => ifZero (d + b + a) (.cdrift (handOf h))
  | _ => .error .illegalOp

/-- Decoding of a command word: `op` first, then `rsv` and the unused fields (30 R88). -/
def decodeCommand (w : CommandWord) : Except DecodeError Instr :=
  if opField w = 0xF then .error .illegalOp
  else if rsvField w ≠ 0 then .error .reservedBits
  else decodeOp (opField w) (hField w) (dField w) (bField w) (aField w)

/-- Decoding of a bus word: the sixteen rows of 43 R152 to R167; none is illegal (30 R83). The last arm is the one value
15 that a 4-bit word has left. -/
def decodeBusWord (w : BusWord) : Instr :=
  match w.toNat with
  | 0b0000 => .bnop
  | 0b0001 => .bmovHb
  | 0b0010 => .bmovHf
  | 0b0011 => .bhome0011
  | 0b0100 => .bmovMb
  | 0b0101 => .bmovHbMb
  | 0b0110 => .bmovHfMb
  | 0b0111 => .bhome0111
  | 0b1000 => .bmovMf
  | 0b1001 => .bmovHbMf
  | 0b1010 => .bmovHfMf
  | 0b1011 => .bhome1011
  | 0b1100 => .bhome1100
  | 0b1101 => .bhome1101
  | 0b1110 => .bhome1110
  | _ => .bhome1111

/-- `in_clk`, bit 4 of a pin sample (30 R80). -/
def sampleClk (v : PinSample) : Bool := v.getLsbD 4
/-- `in_data`, bits 3:0 of a pin sample (30 R80). -/
def sampleData (v : PinSample) : BusWord := v.extractLsb' 0 4

/-- Decoding of a pin sample: the row with an edge when the clock reads 1 and read 0 before, the other row for every
other sample; all 32 samples are legal (42 R131, 30 R89). -/
def decodeSample (prev : Bool) (v : PinSample) : Instr :=
  if sampleClk v && !prev then .sampleEdge (sampleData v)
  else .sampleNoEdge (sampleClk v) (sampleData v)

/-- Decoding of any packet; `prev` is `rly.in_clk_prev`, which a pin sample's row depends on. -/
def decode (prev : Bool) : Packet → Except DecodeError Instr
  | .command w => decodeCommand w
  | .sample v => .ok (decodeSample prev v)
  | .busWord w => .ok (decodeBusWord w)

/-- `enc(op, h, d, b, a)` (30 R92). -/
def encodeFields (op h d b a : Nat) : Packet :=
  .command (BitVec.ofNat 32 (op * 2 ^ 28 + h * 2 ^ 27 + d * 2 ^ 26 + b * 2 ^ 12 + a))

/-- `{in_clk, in_data}` (30 R80). -/
def packSample (c : Bool) (w : BusWord) : PinSample := (BitVec.ofBool c ++ w : BitVec (1 + 4))

/-- The encoding of a well-formed instruction, with the format it has (30 R86, R81, R80). -/
def encode : Instr → Packet
  | .diff a b d => encodeFields 0x0 0 (dirBit d) b a
  | .flp a d => encodeFields 0x1 0 (dirBit d) 0 a
  | .sdir a b => encodeFields 0x2 0 0 b a
  | .ticki => encodeFields 0x3 0 0 0 0
  | .plan h d => encodeFields 0x4 (handBit h) (dirBit d) 0 0
  | .stepf h => encodeFields 0x5 (handBit h) 0 0 0
  | .stepb h => encodeFields 0x6 (handBit h) 0 0 0
  | .tryStep h => encodeFields 0x7 (handBit h) 0 0 0
  | .rsto h => encodeFields 0x8 (handBit h) 0 0 0
  | .recal h a b d => encodeFields 0x9 (handBit h) (dirBit d) b a
  | .tickp => encodeFields 0xA 0 0 0 0
  | .drain => encodeFields 0xB 0 0 0 0
  | .cstart h => encodeFields 0xC (handBit h) 0 0 0
  | .cadv h => encodeFields 0xD (handBit h) 0 0 0
  | .cdrift h => encodeFields 0xE (handBit h) 0 0 0
  | .bnop => .busWord 0b0000
  | .bmovHb => .busWord 0b0001
  | .bmovHf => .busWord 0b0010
  | .bhome0011 => .busWord 0b0011
  | .bmovMb => .busWord 0b0100
  | .bmovHbMb => .busWord 0b0101
  | .bmovHfMb => .busWord 0b0110
  | .bhome0111 => .busWord 0b0111
  | .bmovMf => .busWord 0b1000
  | .bmovHbMf => .busWord 0b1001
  | .bmovHfMf => .busWord 0b1010
  | .bhome1011 => .busWord 0b1011
  | .bhome1100 => .busWord 0b1100
  | .bhome1101 => .busWord 0b1101
  | .bhome1110 => .busWord 0b1110
  | .bhome1111 => .busWord 0b1111
  | .sampleEdge w => .sample (packSample true w)
  | .sampleNoEdge c w => .sample (packSample c w)

/-- The packet that `nbits` bits of value `w` of the opcode table stand for: 32 bits are a command word. A row of 4 or
5 bits fills one byte, so 8 bits may be a bus word or a pin sample: below 16 they are read as the bus word, from 16 to
31 as the pin sample (log 7). -/
def tablePacket (nbits w : Nat) : Option Packet :=
  if nbits = 32 then some (.command (BitVec.ofNat 32 w))
  else if nbits = 4 then some (.busWord (BitVec.ofNat 4 w))
  else if nbits = 5 then some (.sample (BitVec.ofNat 5 w))
  else if nbits = 8 then
    if w < 16 then some (.busWord (BitVec.ofNat 4 w))
    else if w < 32 then some (.sample (BitVec.ofNat 5 w))
    else none
  else none

/-- The instruction the decoder reads from a word of the opcode table; a pin sample is read as the first after reset,
when `in_clk_prev` is 0 (10 R45). -/
def decodeTableWord (nbits w : Nat) : Option Instr :=
  match tablePacket nbits w with
  | none => none
  | some p =>
    match decode false p with
    | .ok i => some i
    | .error _ => none

end Sys2Proof
end

