-- ==== Sys2Proof/Config.lean ====
section
/-! DEFINITION. The configuration record of one node: the build-time parameters of 00 R7 to R10, their constraints
(70 R224), and the record the reset state is built with. No operation reads a parameter out or writes one (10 R43). -/

namespace Sys2Proof

/-- The parameters a model takes "as one configuration record" (00, section 4). -/
structure Config where
  /-- `STEPS_PER_REV`, written `S` (00 R7). -/
  stepsPerRev : Nat
  /-- `N_PHASES`, written `N` (00 R8). -/
  nPhases : Nat
  /-- `COIL_TABLE`, the entry of phase `p` at index `p - 1` (00 R8, 41 R112). -/
  coilTable : List (BitVec 4)
  /-- `MIN_STEP_INTERVAL` (00 R9). -/
  minStepInterval : Nat
  /-- `STANDSTILL_TIMEOUT` (00 R9). -/
  standstillTimeout : Nat
  /-- `MIN_PULSE_WIDTH` (00 R9). -/
  minPulseWidth : Nat
  /-- `INTER_INSTRUCTION_TIMEOUT` (00 R9). -/
  interInstructionTimeout : Nat
  /-- `MIN_STEPS_OUTSIDE_FIELD` (00 R9). -/
  minStepsOutsideField : Nat
  /-- `MIN_WIDTH_FOR_RECALIBRATION` (00 R9). -/
  minWidthForRecalibration : Nat
  /-- `MIN_STEPS_OFF_FOR_RECALIBRATION` (00 R9). -/
  minStepsOffForRecalibration : Nat
  /-- `W_PLAN`, the width of `planned_steps` (00 R10). -/
  wPlan : Nat
  /-- `W_CNT`, the width of `step_count` (00 R10). -/
  wCnt : Nat
  /-- `W_TIME`, the width of the time base and of every timestamp (00 R10). -/
  wTime : Nat
  /-- `PHASE_RESET` (00 R10). -/
  phaseReset : Nat
  /-- `LASTDIR_RESET` (00 R10). -/
  lastdirReset : Direction
  deriving DecidableEq, Repr

/-- `W_POS = floor(log2(S)) + 1` (00 R10). -/
def Config.wPos (c : Config) : Nat := Nat.log2 c.stepsPerRev + 1

/-- How many coils a pattern energizes. -/
def coilsOn (p : BitVec 4) : Nat :=
  (p.getLsbD 0).toNat + (p.getLsbD 1).toNat + (p.getLsbD 2).toNat + (p.getLsbD 3).toNat

/-- The shape of a table entry: one coil for `N = 4`, one or two for `N = 8` (41 R112, 70 R224). -/
def coilEntryOk (n : Nat) (p : BitVec 4) : Bool :=
  coilsOn p = 1 || (n = 8 && coilsOn p = 2)

/-- The parameter constraints gathered in 70 R224. -/
abbrev Config.Ok (c : Config) : Prop :=
  (2 ≤ c.stepsPerRev ∧ c.stepsPerRev ≤ 4095) ∧
  (c.nPhases = 4 ∨ c.nPhases = 8) ∧
  (c.coilTable.length = c.nPhases ∧ c.coilTable.all (coilEntryOk c.nPhases) = true) ∧
  (1 ≤ c.phaseReset ∧ c.phaseReset ≤ c.nPhases) ∧
  (c.minStepInterval < 2 ^ c.wTime ∧ c.standstillTimeout < 2 ^ c.wTime ∧
    c.minPulseWidth < 2 ^ c.wTime ∧ c.interInstructionTimeout < 2 ^ c.wTime) ∧
  c.minStepsOutsideField + 1 ≤ 2 ^ c.wCnt - 1 ∧
  2 ≤ c.minWidthForRecalibration

/-- The default 8-phase half-step table (41 R112, 93 G1). -/
def halfStepTable : List (BitVec 4) :=
  [0b0001, 0b0011, 0b0010, 0b0110, 0b0100, 0b1100, 0b1000, 0b1001]

/-- The default 4-phase wave-drive table (41 R112, 93 G1). -/
def waveDriveTable : List (BitVec 4) :=
  [0b0001, 0b0010, 0b0100, 0b1000]

/-- Free value: `MIN_STEP_INTERVAL` of the node at reset; the spec gives it no default (00 R9, 93 U4; log 2). -/
opaque Config.freeMinStepInterval : BitVec 32
/-- Free value: `STANDSTILL_TIMEOUT` of the node at reset (00 R9, 93 U4; log 2). -/
opaque Config.freeStandstillTimeout : BitVec 32
/-- Free value: `MIN_PULSE_WIDTH` of the node at reset (00 R9, 93 U4; log 2). -/
opaque Config.freeMinPulseWidth : BitVec 32
/-- Free value: `INTER_INSTRUCTION_TIMEOUT` of the node at reset (00 R9, 93 U4; log 2). -/
opaque Config.freeInterInstructionTimeout : BitVec 32
/-- Free value: `MIN_STEPS_OUTSIDE_FIELD` of the node at reset, in the range rule R9 sets (log 2). -/
opaque Config.freeMinStepsOutsideField : Fin 65535
/-- Free value: how far `MIN_WIDTH_FOR_RECALIBRATION` of the node at reset exceeds its least value 2 (log 2). -/
opaque Config.freeExtraWidth : Nat
/-- Free value: `MIN_STEPS_OFF_FOR_RECALIBRATION` of the node at reset (00 R9, 93 U4; log 2). -/
opaque Config.freeMinStepsOff : Nat

/-- The configuration `State.reset` is built with: the spec's default for each parameter that has one (00 R7, R8, R10),
a free value in the spec's range for each that has none. -/
def Config.built : Config where
  stepsPerRev := 1705
  nPhases := 8
  coilTable := halfStepTable
  minStepInterval := Config.freeMinStepInterval.toNat
  standstillTimeout := Config.freeStandstillTimeout.toNat
  minPulseWidth := Config.freeMinPulseWidth.toNat
  interInstructionTimeout := Config.freeInterInstructionTimeout.toNat
  minStepsOutsideField := Config.freeMinStepsOutsideField.val
  minWidthForRecalibration := Config.freeExtraWidth + 2
  minStepsOffForRecalibration := Config.freeMinStepsOff
  wPlan := 16
  wCnt := 16
  wTime := 32
  phaseReset := 1
  lastdirReset := .backward

end Sys2Proof
end

