-- ==== Sys2Proof/Machine/State.lean ====
section
/-! DEFINITION. The state of one node (spec 10), the outcomes of a step, and the state after reset (10 R45, 70 R215).
The block has no memory, no program counter and no register file (10 R22, R44; 20 R60). -/

namespace Sys2Proof.Machine

/-- A machine that stops with a fault: never. "No exception-style propagation anywhere" (60 R190): no operation traps
or aborts, so this type has no constructor and nobody raises one. Safe: a step that could not stop stops nowhere. -/
inductive Fault where
  deriving DecidableEq, Repr

/-- Why the model gives no next state. -/
inductive Refusal where
  /-- Raised by an arm of `exec` whose instruction has no meaning yet; no arm does. Safe. -/
  | notModelled (mnemonic : String)
  /-- Raised by `State.build` for a configuration that breaks 70 R224: "`refuse` the configuration" (93 U2 to U4). Safe:
  no node is built, so nothing is claimed of it. -/
  | illegalConfig
  deriving DecidableEq, Repr

/-- The `status` of a response (60 R191). -/
inductive Status where
  | ok
  | illegalOp
  | reservedBits
  | operandRange
  | planOverflow
  | countOverflow
  deriving DecidableEq, Repr

/-- A response, `{status, value}` (30 R85). -/
structure Response where
  status : Status
  value : Nat
  deriving DecidableEq, Repr

/-- The homing state of a calibration controller (10 R33). -/
inductive CalPhase where
  | leaveField
  | findField
  | inField
  | centering
  | calibrated
  deriving DecidableEq, Repr

/-- The registers of one sequencer `seq[h]` (10 R23 to R30). -/
structure Sequencer where
  /-- `position` (10 R24). -/
  position : Nat
  /-- `commutation_phase`, in `1..N` (10 R25). -/
  commutationPhase : Nat
  /-- `planned_steps` (10 R26). -/
  plannedSteps : Int
  /-- `coils_energized` (10 R27). -/
  coilsEnergized : Bool
  /-- `last_step_time` (10 R28). -/
  lastStepTime : Nat
  /-- `last_direction` (10 R29). -/
  lastDirection : Direction
  /-- `coil[3:0]`, the four coil pins (10 R30). -/
  coil : BitVec 4
  deriving DecidableEq, Repr

/-- The registers of one calibration controller `cal[h]` (10 R33 to R35). -/
structure Calibration where
  /-- `phase` (10 R33). -/
  phase : CalPhase
  /-- `step_count` (10 R34). -/
  stepCount : Nat
  /-- `tracking_in_field` (10 R35). -/
  trackingInField : Bool
  /-- `enter_position` (10 R35). -/
  enterPosition : Nat
  /-- `enter_direction` (10 R35). -/
  enterDirection : Direction
  /-- `ignore_next_field` (10 R35). -/
  ignoreNextField : Bool
  deriving DecidableEq, Repr

/-- The mailbox `mbx` (10 R37). -/
structure Mailbox where
  pending : Bool
  data : BusWord
  deriving DecidableEq, Repr

/-- The registers of the relay `rly` (10 R38 to R42). -/
structure Relay where
  /-- `relaying` (10 R38). -/
  relaying : Bool
  /-- `clock_line_high`, which drives the pin `out_clk` (10 R39). -/
  clockLineHigh : Bool
  /-- `out_data[3:0]`, the outbound data pins (10 R41). -/
  outData : BusWord
  /-- `last_receive_time` (10 R40). -/
  lastReceiveTime : Nat
  /-- `last_send_time` (10 R40). -/
  lastSendTime : Nat
  /-- `in_clk_prev` (10 R42). -/
  inClkPrev : Bool
  deriving DecidableEq, Repr

/-- The inputs an event carries besides the bus pins (10 R21, 20 R69): the time base and the two hall pins, a pin being
true when high. -/
structure Inputs where
  /-- `now` (00 R11). -/
  now : Nat
  /-- `hall_n[H]` (20 R62). -/
  hallH : Bool
  /-- `hall_n[M]` (20 R62). -/
  hallM : Bool
  deriving DecidableEq, Repr

/-- What arrives at the node in an event: a command word at the command port or a sample of the bus pins (20 R69). -/
inductive Arrival where
  | command (w : CommandWord)
  | sample (v : PinSample)
  deriving DecidableEq, Repr

/-- One atomic event (20 R69): the inputs it reads, what arrives, and the level of the reset input `rst` (70 R215). -/
structure Event where
  rst : Bool
  inputs : Inputs
  arrival : Arrival
  deriving DecidableEq, Repr

/-- The whole state of one node: its configuration, the state elements of 10 R20, and the model's own fields for what
the environment presents and what the host gets back (logs 1, 3, 4, 5). -/
structure State where
  /-- The build-time parameters; no operation writes them (10 R43). -/
  cfg : Config
  /-- `seq[H]`. -/
  seqH : Sequencer
  /-- `seq[M]`. -/
  seqM : Sequencer
  /-- `cal[H]`. -/
  calH : Calibration
  /-- `cal[M]`. -/
  calM : Calibration
  /-- `mbx`. -/
  mbx : Mailbox
  /-- `rly`. -/
  rly : Relay
  /-- The inputs of the current event (10 R21). -/
  inp : Inputs
  /-- The response the current event delivers, if it delivers one (20 R76). -/
  resp : Option Response
  /-- The events still to come, first one first: any list, so every interleaving (20 R69). -/
  events : List Event
  deriving DecidableEq, Repr

/-- `seq[h]` after reset (10 R45). -/
def Sequencer.reset (c : Config) : Sequencer where
  position := 0
  commutationPhase := c.phaseReset
  plannedSteps := 0
  coilsEnergized := false
  lastStepTime := 0
  lastDirection := c.lastdirReset
  coil := 0b0000

/-- `cal[h]` after reset (10 R45). -/
def Calibration.reset : Calibration where
  phase := .findField
  stepCount := 0
  trackingInField := false
  enterPosition := 0
  enterDirection := .backward
  ignoreNextField := false

/-- `mbx` after reset (10 R45). -/
def Mailbox.reset : Mailbox where
  pending := false
  data := 0b0000

/-- `rly` after reset (10 R45). -/
def Relay.reset : Relay where
  relaying := false
  clockLineHigh := false
  outData := 0b0000
  lastReceiveTime := 0
  lastSendTime := 0
  inClkPrev := false

/-- The node of configuration `c` right after reset, with nothing presented to it yet (10 R45, 70 R215). The inputs,
which are no state elements, read time 0 and no magnet until an event brings its own (log 4). -/
def State.resetWith (c : Config) : State where
  cfg := c
  seqH := Sequencer.reset c
  seqM := Sequencer.reset c
  calH := Calibration.reset
  calM := Calibration.reset
  mbx := Mailbox.reset
  rly := Relay.reset
  inp := { now := 0, hallH := true, hallM := true }
  resp := none
  events := []

/-- The machine right after reset, with the configuration `Config.built` (log 2). -/
def State.reset : State := State.resetWith Config.built

/-- Building a node: a configuration that breaks a constraint of 70 R224 is refused (93 U2 to U4). -/
def State.build (c : Config) : Except Refusal State :=
  if c.Ok then .ok (State.resetWith c) else .error .illegalConfig

end Sys2Proof.Machine
end

