-- ==== Sys2Proof/Machine/Ops.lean ====
section
/-! DEFINITION. The named operations every meaning uses: access to a hand's registers, answering and refusing a command
(spec 20 R76, 60 R192), elapsed time (00 R11), the ranges of the counted registers (10 R26, R34), the pins (20 R62), and
the beginning of an event (20 R69, 70 R215). The block has no exception to take (60 R190): a refusal is `State.refuse`,
and entering the edge handler is `State.edge` in Relay.lean. -/

namespace Sys2Proof.Machine

/-- What a step answers on this machine. -/
abbrev Result := Host.Outcome State Fault Refusal

/-- `seq[h]`. -/
def State.seq (s : State) : Hand → Sequencer
  | .hour => s.seqH
  | .minute => s.seqM

/-- `cal[h]`. -/
def State.cal (s : State) : Hand → Calibration
  | .hour => s.calH
  | .minute => s.calM

/-- `seq[h] <- m`. -/
def State.withSeq (s : State) (h : Hand) (m : Sequencer) : State :=
  match h with
  | .hour => { s with seqH := m }
  | .minute => { s with seqM := m }

/-- `cal[h] <- c`. -/
def State.withCal (s : State) (h : Hand) (c : Calibration) : State :=
  match h with
  | .hour => { s with calH := c }
  | .minute => { s with calM := c }

/-- The level of the hall pin of a hand, true when high (20 R62). -/
def Inputs.hall (i : Inputs) : Hand → Bool
  | .hour => i.hallH
  | .minute => i.hallM

/-- Delivering a response with the event's effect (20 R76). -/
def State.respond (s : State) (st : Status) (v : Nat) : State :=
  { s with resp := some { status := st, value := v } }

/-- `refuse <Error>`: nothing is written, the code is answered with value 0, and the command is over (60 R192). -/
def State.refuse (s : State) (st : Status) : State :=
  s.respond st 0

/-- The end of a command that started in `s`: its effect with `OK` and the value `v`, or its refusal (60 R192). -/
def State.answer (s : State) (v : Nat) : Except Status State → Result
  | .ok t => .next (t.respond .ok v)
  | .error e => .next (s.refuse e)

/-- The end of a bus word's dispatch that started in `s`: its effect, or the refusal of the whole dispatch (43 R151).
The value is the `DRAIN`'s to answer (log 6). -/
def State.settle (s : State) : Except Status State → Result
  | .ok t => .next t
  | .error e => .next (s.refuse e)

/-- `now -w last`: elapsed time modulo `2^W_TIME` (00 R11, R12). -/
def elapsed (c : Config) (now last : Nat) : Nat :=
  (((now : Int) - (last : Int)) % ((2 ^ c.wTime : Nat) : Int)).toNat

/-- The largest `planned_steps`, `2^(W_PLAN-1) - 1` (00 R10). -/
def planMax (c : Config) : Int := ((2 ^ (c.wPlan - 1) : Nat) : Int) - 1

/-- The least `planned_steps`, `-2^(W_PLAN-1)` (00 R10). -/
def planMin (c : Config) : Int := -((2 ^ (c.wPlan - 1) : Nat) : Int)

/-- The largest `step_count`, `2^W_CNT - 1` (00 R10). -/
def countMax (c : Config) : Nat := 2 ^ c.wCnt - 1

/-- The pin `out_clk`, which is `clock_line_high` at all times (10 R39). -/
def State.outClk (s : State) : Bool := s.rly.clockLineHigh

/-- The outbound bus pins `{out_clk, out_data}` as the next node samples them (20 R62, 60 R209). -/
def State.outPins (s : State) : PinSample := packSample s.outClk s.rly.outData

/-- The numeric code of a status (60 R191). -/
def Status.code : Status → Nat
  | .ok => 0
  | .illegalOp => 1
  | .reservedBits => 2
  | .operandRange => 3
  | .planOverflow => 4
  | .countOverflow => 5

/-- The status a word that does not decode is refused with (30 R88, 60 R193). -/
def statusOf : DecodeError → Status
  | .illegalOp => .illegalOp
  | .reservedBits => .reservedBits

/-- A response as the 16-bit word `{status[2:0], value[12:0]}` (30 R85). -/
def Response.word (r : Response) : BitVec 16 :=
  BitVec.ofNat 16 (r.status.code * 2 ^ 13 + r.value)

/-- The packet an arrival is, in the format of the port it arrives at (30 R80). -/
def Arrival.packet : Arrival → Packet
  | .command w => .command w
  | .sample v => .sample v

/-- The inputs as the node reads them: `now` has `W_TIME` bits (00 R11; log 4). -/
def Inputs.read (c : Config) (i : Inputs) : Inputs :=
  { i with now := i.now % 2 ^ c.wTime }

/-- The event `e` begins: it is taken off the schedule, its inputs are read, and no response stands yet (20 R69, R76). -/
def State.beginEvent (s : State) (e : Event) (rest : List Event) : State :=
  { s with inp := e.inputs.read s.cfg, resp := none, events := rest }

/-- `rst`: every state element takes its reset value; the configuration is built in and the inputs are not state
elements (70 R215, 10 R45). -/
def State.resetNode (s : State) : State :=
  { State.resetWith s.cfg with inp := s.inp, events := s.events }

/-- The event `e` comes next, before everything scheduled. -/
def State.present (s : State) (e : Event) : State :=
  { s with events := e :: s.events }

/-- The events of one clock cycle that has a `SAMPLE` and perhaps a command: "the `SAMPLE` is ordered first", both read
the same inputs (60 R199). -/
def cycleEvents (inputs : Inputs) (v : PinSample) (cmd : Option CommandWord) : List Event :=
  { rst := false, inputs := inputs, arrival := .sample v } ::
    (match cmd with
    | none => []
    | some w => [{ rst := false, inputs := inputs, arrival := .command w }])

end Sys2Proof.Machine
end

