-- ==== Sys2Proof/Machine/Operands.lean ====
section
/-! DEFINITION. The operand forms of the commands: the range checks on positions, widths and offsets (spec 30 R87, 60
R194), the sign a direction gives a count of steps (10 R26), and the hall input of a hand (20 R74). -/

namespace Sys2Proof.Machine

/-- A position operand, and the `RECAL` offset, must be `< S` (30 R87). -/
def inRing (c : Config) (n : Nat) : Bool := n < c.stepsPerRev

/-- The `FLP` field width must be `<= S` (30 R87). -/
def widthInRange (c : Config) (n : Nat) : Bool := n ≤ c.stepsPerRev

/-- `n` steps in direction `d` as a change of `planned_steps`: positive is forward (10 R26). -/
def signedSteps (d : Direction) (n : Nat) : Int :=
  match d with
  | .forward => (n : Int)
  | .backward => -(n : Int)

/-- The value a direction is answered as: 1 Forward, 0 Backward (30 R85). -/
def dirValue (d : Direction) : Nat := dirBit d

/-- `in_field = (PinRead(hall_n[h]) == 0)` (20 R74). -/
def State.inField (s : State) (h : Hand) : Bool := !(s.inp.hall h)

end Sys2Proof.Machine
end

