-- ==== Sys2Proof/Machine/Flags.lean ====
section
/-! DEFINITION. The flags of a bus word and the class they give it (spec 30 R81, R82). The block has no condition codes
(10 R32): its one-bit state elements are written by the operations that own them. -/

namespace Sys2Proof.Machine

/-- `HB`, hour-backward, bit 0 (30 R81). -/
def flagHB (w : BusWord) : Bool := w.getLsbD 0
/-- `HF`, hour-forward, bit 1. -/
def flagHF (w : BusWord) : Bool := w.getLsbD 1
/-- `MB`, minute-backward, bit 2. -/
def flagMB (w : BusWord) : Bool := w.getLsbD 2
/-- `MF`, minute-forward, bit 3. -/
def flagMF (w : BusWord) : Bool := w.getLsbD 3

/-- `trig(w)`: both flags of one hand are set (30 R82). -/
def trig (w : BusWord) : Bool := (flagHB w && flagHF w) || (flagMB w && flagMF w)

end Sys2Proof.Machine
end

