-- ==== Sys2Proof/Machine/Pmu.lean ====
section
/-! DEFINITION. The position modulo-arithmetic unit (spec 40): `diff`, `flp`, `sdir` on the ring of `S` positions, and
the commands `DIFF`, `FLP`, `SDIR`, which write no state element (R100). -/

namespace Sys2Proof.Machine

/-- `diff(from, to, dir)`, steps from `p` to `q` walking in direction `d` (40 R102). -/
def diff (c : Config) (p q : Nat) (d : Direction) : Nat :=
  match d with
  | .forward => if q ≥ p then q - p else c.stepsPerRev - p + q
  | .backward => if p ≥ q then p - q else c.stepsPerRev - q + p

/-- `flp(width, dir)` (40 R104). -/
def flp (c : Config) (width : Nat) (d : Direction) : Nat :=
  match d with
  | .forward => width / 2
  | .backward => c.stepsPerRev - width / 2

/-- `sdir(from, to)`: Forward only if strictly shorter (40 R106). -/
def sdir (c : Config) (p q : Nat) : Direction :=
  if diff c p q .forward < diff c p q .backward then .forward else .backward

/-- `DIFF from, to, dir` (40 R102). -/
def execDiff (a b : Nat) (d : Direction) (s : State) : Result :=
  if inRing s.cfg a && inRing s.cfg b then s.answer (diff s.cfg a b d) (.ok s)
  else s.answer 0 (.error .operandRange)

/-- `FLP width, dir` (40 R104); for width 0 or 1 Backward the answer is `S` itself (90 C2). -/
def execFlp (a : Nat) (d : Direction) (s : State) : Result :=
  if widthInRange s.cfg a then s.answer (flp s.cfg a d) (.ok s)
  else s.answer 0 (.error .operandRange)

/-- `SDIR from, to` (40 R106). -/
def execSdir (a b : Nat) (s : State) : Result :=
  if inRing s.cfg a && inRing s.cfg b then s.answer (dirValue (sdir s.cfg a b)) (.ok s)
  else s.answer 0 (.error .operandRange)

end Sys2Proof.Machine
end

