-- ==== Sys2Proof/Machine/Sequencing.lean ====
section
/-! DEFINITION. The stepper commutation sequencer (spec 41): the step (R112 to R116), de-energize (R117), the queue of
steps owed (R111, R122, R124), the rate-limited attempt (R118), the origin reset (R120), and the commands `PLAN`,
`STEPF`, `STEPB`, `TRY`, `RSTO`, `RECAL`. -/

namespace Sys2Proof.Machine

/-- `next(p)`, the phase a forward step takes (41 R113). -/
def nextPhase (c : Config) (p : Nat) : Nat := if p = c.nPhases then 1 else p + 1

/-- `prev(p)`, the phase a backward step takes (41 R113). -/
def prevPhase (c : Config) (p : Nat) : Nat := if p = 1 then c.nPhases else p - 1

/-- `COIL_TABLE[p]`, for `p` in `1..N` (41 R112). -/
def coilPattern (c : Config) (p : Nat) : BitVec 4 := c.coilTable.getD (p - 1) 0b0000

/-- `(p + 1) mod S` (41 R114, R124). -/
def succPosition (c : Config) (p : Nat) : Nat := (p + 1) % c.stepsPerRev

/-- `(p - 1) mod S`: 0 goes to `S - 1` (41 R115, R124). -/
def predPosition (c : Config) (p : Nat) : Nat := (p + (c.stepsPerRev - 1)) % c.stepsPerRev

/-- One step forward, all four coil bits in one event (41 R114, R116). -/
def Sequencer.stepForward (c : Config) (m : Sequencer) : Sequencer :=
  { m with
    commutationPhase := nextPhase c m.commutationPhase
    coil := coilPattern c (nextPhase c m.commutationPhase)
    position := succPosition c m.position
    lastDirection := .forward
    coilsEnergized := true }

/-- One step backward (41 R115, R116). -/
def Sequencer.stepBackward (c : Config) (m : Sequencer) : Sequencer :=
  { m with
    commutationPhase := prevPhase c m.commutationPhase
    coil := coilPattern c (prevPhase c m.commutationPhase)
    position := predPosition c m.position
    lastDirection := .backward
    coilsEnergized := true }

/-- `deenergize(h)` (41 R117). -/
def Sequencer.deenergize (m : Sequencer) : Sequencer :=
  { m with coil := 0b0000, coilsEnergized := false }

/-- `planned_steps` changed by `k`, or `PlanOverflow`: it never wraps and never saturates (41 R124). -/
def Sequencer.addSteps (c : Config) (k : Int) (m : Sequencer) : Except Status Sequencer :=
  if m.plannedSteps + k > planMax c ∨ m.plannedSteps + k < planMin c then .error .planOverflow
  else .ok { m with plannedSteps := m.plannedSteps + k }

/-- `PLAN`: one step more in direction `d` (41 R111). -/
def Sequencer.plan (c : Config) (d : Direction) (m : Sequencer) : Except Status Sequencer :=
  m.addSteps c (signedSteps d 1)

/-- `TRY` at time `now`, with whether a step was executed (41 R118, its four lines in order). -/
def Sequencer.tryStep (c : Config) (now : Nat) (m : Sequencer) : Sequencer × Bool :=
  if m.coilsEnergized = false ∧ m.plannedSteps = 0 then (m, false)
  else if m.plannedSteps = 0 ∧ elapsed c now m.lastStepTime > c.standstillTimeout then (m.deenergize, false)
  else if elapsed c now m.lastStepTime < c.minStepInterval then (m, false)
  else if m.plannedSteps > 0 then
    ({ m.stepForward c with plannedSteps := m.plannedSteps - 1, lastStepTime := now }, true)
  else if m.plannedSteps < 0 then
    ({ m.stepBackward c with plannedSteps := m.plannedSteps + 1, lastStepTime := now }, true)
  else (m, false)

/-- `RSTO` (41 R120): the phase and the last direction stay. -/
def Sequencer.resetOrigin (m : Sequencer) : Sequencer :=
  { m with position := 0, lastStepTime := 0, plannedSteps := 0 }.deenergize

/-- `target` offset by `off` against the direction of the correction, modulo `S` (41 R122, 90 C7). -/
def recalPosition (c : Config) (target off : Nat) (d : Direction) : Nat :=
  match d with
  | .forward => (target + (c.stepsPerRev - off)) % c.stepsPerRev
  | .backward => (target + off) % c.stepsPerRev

/-- `RECAL target, off, dir`, the soft correction (41 R122). -/
def Sequencer.recalibrate (c : Config) (target off : Nat) (d : Direction) (m : Sequencer) : Except Status Sequencer :=
  if inRing c target && inRing c off then
    match m.addSteps c (signedSteps d off) with
    | .ok m' => .ok { m' with position := recalPosition c target off d }
    | .error e => .error e
  else .error .operandRange

/-- An operation on `seq[h]`, nothing written when it refuses (60 R192). -/
def State.onSeq (s : State) (h : Hand) (r : Except Status Sequencer) : Except Status State :=
  match r with
  | .ok m => .ok (s.withSeq h m)
  | .error e => .error e

/-- `PLAN h, dir` on the whole state (41 R111). -/
def State.plan (s : State) (h : Hand) (d : Direction) : Except Status State :=
  s.onSeq h ((s.seq h).plan s.cfg d)

/-- `PLAN h, dir` (41 R111). -/
def execPlan (h : Hand) (d : Direction) (s : State) : Result :=
  s.answer 0 (s.plan h d)

/-- `STEPF h` (41 R114). -/
def execStepf (h : Hand) (s : State) : Result :=
  s.answer 0 (.ok (s.withSeq h ((s.seq h).stepForward s.cfg)))

/-- `STEPB h` (41 R115). -/
def execStepb (h : Hand) (s : State) : Result :=
  s.answer 0 (.ok (s.withSeq h ((s.seq h).stepBackward s.cfg)))

/-- `TRY h`, which returns 1 when it executed a step and 0 otherwise (41 R118). -/
def execTry (h : Hand) (s : State) : Result :=
  s.answer ((s.seq h).tryStep s.cfg s.inp.now).2.toNat
    (.ok (s.withSeq h ((s.seq h).tryStep s.cfg s.inp.now).1))

/-- `RSTO h` (41 R120). -/
def execRsto (h : Hand) (s : State) : Result :=
  s.answer 0 (.ok (s.withSeq h (s.seq h).resetOrigin))

/-- `RECAL h, target, off, dir` (41 R122). -/
def execRecal (h : Hand) (a b : Nat) (d : Direction) (s : State) : Result :=
  s.answer 0 (s.onSeq h ((s.seq h).recalibrate s.cfg a b d))

end Sys2Proof.Machine
end

