-- ==== Sys2Proof/Machine/Homing.lean ====
section
/-! DEFINITION. The calibration controller (spec 44): the restart `CSTART` (R171), the homing state machine `CADV` (R172
to R176) and the drift check `CDRIFT` (R180, R181). It acts on `seq[h]` only through the sequencer's own operations. -/

namespace Sys2Proof.Machine

/-- `CSTART`: `step_count <- 0`, `phase <- FindField`, nothing else (44 R171). -/
def Calibration.start (c : Calibration) : Calibration :=
  { c with stepCount := 0, phase := .findField }

/-- A hand's controller with its sequencer, as an operation of the controller leaves them, or its refusal. -/
abbrev HandResult := Except Status (Calibration × Sequencer)

/-- Phase LeaveField (44 R173). -/
def cadvLeaveField (g : Config) (c : Calibration) (m : Sequencer) : HandResult :=
  if c.stepCount = 0 then .ok ({ c with phase := .findField }, m)
  else .ok ({ c with stepCount := c.stepCount - 1 }, m.stepBackward g)

/-- One forward step that is counted, or `CountOverflow` (44 R174, R175). -/
def cadvCountForward (g : Config) (c : Calibration) (m : Sequencer) : HandResult :=
  if c.stepCount = countMax g then .error .countOverflow
  else .ok ({ c with stepCount := c.stepCount + 1 }, m.stepForward g)

/-- Phase FindField (44 R174). -/
def cadvFindField (g : Config) (inField : Bool) (c : Calibration) (m : Sequencer) : HandResult :=
  if inField = true ∧ c.stepCount ≤ g.minStepsOutsideField then
    .ok ({ c with stepCount := g.minStepsOutsideField + 1, phase := .leaveField }, m)
  else if inField = true then .ok ({ c with stepCount := 0, phase := .inField }, m)
  else cadvCountForward g c m

/-- Phase InField (44 R175). -/
def cadvInField (g : Config) (inField : Bool) (c : Calibration) (m : Sequencer) : HandResult :=
  if inField = false then .ok ({ c with stepCount := c.stepCount / 2, phase := .centering }, m)
  else cadvCountForward g c m

/-- Phase Centering (44 R176). -/
def cadvCentering (g : Config) (c : Calibration) (m : Sequencer) : HandResult :=
  if c.stepCount = 0 then .ok ({ c with ignoreNextField := true, phase := .calibrated }, m.resetOrigin)
  else .ok ({ c with stepCount := c.stepCount - 1 }, m.stepBackward g)

/-- One call of the homing step: exactly one row of the table for the current phase (44 R172). -/
def cadvRow (g : Config) (inField : Bool) (c : Calibration) (m : Sequencer) : HandResult :=
  match c.phase with
  | .leaveField => cadvLeaveField g c m
  | .findField => cadvFindField g inField c m
  | .inField => cadvInField g inField c m
  | .centering => cadvCentering g c m
  | .calibrated => .ok (c, m)

/-- The value `CADV` returns: 1 exactly when the phase after the row is Calibrated (44 R172). -/
def doneValue (c : Calibration) : Nat := if c.phase = .calibrated then 1 else 0

/-- The measurement of a crossing that is neither reversed nor ignored; `c` has `tracking_in_field` cleared already
(44 R180, R181 (d) to (g)). -/
def driftMeasure (g : Config) (c : Calibration) (m : Sequencer) : HandResult :=
  let width := diff g c.enterPosition m.position c.enterDirection
  let target := flp g width c.enterDirection
  let cdir := sdir g m.position target
  let off := diff g m.position target cdir
  if width < g.minWidthForRecalibration then .ok (c, m)
  else if off < g.minStepsOffForRecalibration then .ok (c, m)
  else
    match m.recalibrate g target (off / 2) cdir with
    | .ok m' => .ok ({ c with ignoreNextField := true }, m')
    | .error e => .error e

/-- The leaving transition: `tracking_in_field` is cleared on every path (44 R180 step 2, R181 (h)). -/
def driftLeave (g : Config) (c : Calibration) (m : Sequencer) : HandResult :=
  if c.enterDirection ≠ m.lastDirection then .ok ({ c with trackingInField := false }, m)
  else if c.ignoreNextField = true then .ok ({ c with trackingInField := false, ignoreNextField := false }, m)
  else driftMeasure g { c with trackingInField := false } m

/-- The drift check (44 R180); it does not read the homing phase (90 C10). -/
def driftCheck (g : Config) (inField : Bool) (c : Calibration) (m : Sequencer) : HandResult :=
  if inField = true ∧ c.trackingInField = false then
    .ok ({ c with enterPosition := m.position, enterDirection := m.lastDirection, trackingInField := true }, m)
  else if inField = false ∧ c.trackingInField = true then driftLeave g c m
  else .ok (c, m)

/-- The state with a hand's controller and sequencer as given. -/
def State.withHand (s : State) (h : Hand) (p : Calibration × Sequencer) : State :=
  (s.withCal h p.1).withSeq h p.2

/-- `CSTART h` on the whole state (44 R171). -/
def State.cstart (s : State) (h : Hand) : State :=
  s.withCal h (s.cal h).start

/-- `CSTART h` (44 R171). -/
def execCstart (h : Hand) (s : State) : Result :=
  s.answer 0 (.ok (s.cstart h))

/-- `CADV h` (44 R172). -/
def execCadv (h : Hand) (s : State) : Result :=
  match cadvRow s.cfg (s.inField h) (s.cal h) (s.seq h) with
  | .ok p => s.answer (doneValue p.1) (.ok (s.withHand h p))
  | .error e => s.answer 0 (.error e)

/-- `CDRIFT h` (44 R180). -/
def execCdrift (h : Hand) (s : State) : Result :=
  match driftCheck s.cfg (s.inField h) (s.cal h) (s.seq h) with
  | .ok p => s.answer 0 (.ok (s.withHand h p))
  | .error e => s.answer 0 (.error e)

end Sys2Proof.Machine
end

