-- ==== Sys2Proof/Machine/BusWords.lean ====
section
/-! DEFINITION. The bus words and their dispatch (spec 43): `dispatch` as R151 gives it on the flags, and the effect of
each of the sixteen words as its own rule R152 to R167 gives it. A word takes effect when the host performs `DRAIN`. -/

namespace Sys2Proof.Machine

/-- `PLAN h, dir` performed if the flag is set (43 R151). -/
def planIf (flag : Bool) (h : Hand) (d : Direction) (r : Except Status State) : Except Status State :=
  match r with
  | .ok s => if flag then s.plan h d else .ok s
  | .error e => .error e

/-- Restart of the homing of both hands, "CSTART H; CSTART M" (43 R151). -/
def State.restartHoming (s : State) : State := (s.cstart .hour).cstart .minute

/-- `dispatch(w)`: a trigger restarts both hands, any other word plans one step for each set flag; refused as a whole
(43 R151). -/
def dispatch (w : BusWord) (s : State) : Except Status State :=
  if trig w then .ok s.restartHoming
  else
    planIf (flagMF w) .minute .forward
      (planIf (flagMB w) .minute .backward
        (planIf (flagHF w) .hour .forward
          (planIf (flagHB w) .hour .backward (.ok s))))

/-- `PLAN H, dh; PLAN M, dm`, both or neither (43 R151). -/
def State.planBoth (s : State) (dh dm : Direction) : Except Status State :=
  match s.plan .hour dh with
  | .ok t => t.plan .minute dm
  | .error e => .error e

/-- `BNOP` (43 R152). -/
def execBnop (s : State) : Result := s.settle (.ok s)
/-- `BMOV HB` (43 R153). -/
def execBmovHb (s : State) : Result := s.settle (s.plan .hour .backward)
/-- `BMOV HF` (43 R154). -/
def execBmovHf (s : State) : Result := s.settle (s.plan .hour .forward)
/-- `BHOME 0011` (43 R155). -/
def execBhome0011 (s : State) : Result := s.settle (.ok s.restartHoming)
/-- `BMOV MB` (43 R156). -/
def execBmovMb (s : State) : Result := s.settle (s.plan .minute .backward)
/-- `BMOV HB,MB` (43 R157). -/
def execBmovHbMb (s : State) : Result := s.settle (s.planBoth .backward .backward)
/-- `BMOV HF,MB` (43 R158). -/
def execBmovHfMb (s : State) : Result := s.settle (s.planBoth .forward .backward)
/-- `BHOME 0111` (43 R159). -/
def execBhome0111 (s : State) : Result := s.settle (.ok s.restartHoming)
/-- `BMOV MF` (43 R160). -/
def execBmovMf (s : State) : Result := s.settle (s.plan .minute .forward)
/-- `BMOV HB,MF` (43 R161). -/
def execBmovHbMf (s : State) : Result := s.settle (s.planBoth .backward .forward)
/-- `BMOV HF,MF` (43 R162). -/
def execBmovHfMf (s : State) : Result := s.settle (s.planBoth .forward .forward)
/-- `BHOME 1011` (43 R163). -/
def execBhome1011 (s : State) : Result := s.settle (.ok s.restartHoming)
/-- `BHOME 1100` (43 R164). -/
def execBhome1100 (s : State) : Result := s.settle (.ok s.restartHoming)
/-- `BHOME 1101` (43 R165). -/
def execBhome1101 (s : State) : Result := s.settle (.ok s.restartHoming)
/-- `BHOME 1110` (43 R166). -/
def execBhome1110 (s : State) : Result := s.settle (.ok s.restartHoming)
/-- `BHOME 1111` (43 R167). -/
def execBhome1111 (s : State) : Result := s.settle (.ok s.restartHoming)

end Sys2Proof.Machine
end

