-- ==== Sys2Proof/Machine/Relaying.lean ====
section
/-! DEFINITION. The synchronous bus relay (spec 42): the edge detector's `SAMPLE` (R131) with the edge handler `EDGE`
(R133), the housekeeping `TICKP` (R137) and `TICKI` (R138), and the mailbox drain `DRAIN` (R139). The handler saves
nothing, changes no mode and ends with its event (60 R200, R201). -/

namespace Sys2Proof.Machine

/-- `EDGE w`, the handler of the block's one interrupt (42 R133). -/
def State.edge (s : State) (w : BusWord) : State :=
  if s.rly.relaying then
    { s with rly := { s.rly with
        outData := w, clockLineHigh := true, lastSendTime := s.inp.now, lastReceiveTime := s.inp.now } }
  else
    { s with
      mbx := { data := w, pending := true }
      rly := { s.rly with relaying := true, lastReceiveTime := s.inp.now } }

/-- `rly.in_clk_prev <- c` (42 R131). -/
def State.seeClk (s : State) (c : Bool) : State :=
  { s with rly := { s.rly with inClkPrev := c } }

/-- A `SAMPLE` that shows a rising edge: `EDGE w`, then `in_clk_prev <- 1` (42 R131, R133). It answers nothing, being no
command. -/
def execSampleEdge (w : BusWord) (s : State) : Result :=
  .next ((s.edge w).seeClk true)

/-- A `SAMPLE` without an edge writes `in_clk_prev` and nothing else; the data lines are not looked at (42 R131). -/
def execSampleNoEdge (c : Bool) (_w : BusWord) (s : State) : Result :=
  .next (s.seeClk c)

/-- `TICKP` (42 R137). -/
def State.tickp (s : State) : State :=
  if s.rly.clockLineHigh = true ∧ elapsed s.cfg s.inp.now s.rly.lastSendTime > s.cfg.minPulseWidth then
    { s with rly := { s.rly with clockLineHigh := false } }
  else s

/-- `TICKI` (42 R138). -/
def State.ticki (s : State) : State :=
  if s.rly.relaying = true ∧ elapsed s.cfg s.inp.now s.rly.lastReceiveTime > s.cfg.interInstructionTimeout then
    { s with rly := { s.rly with relaying := false, outData := 0b0000 } }
  else s

/-- `TICKP` (42 R137). -/
def execTickp (s : State) : Result := s.answer 0 (.ok s.tickp)

/-- `TICKI` (42 R138). -/
def execTicki (s : State) : Result := s.answer 0 (.ok s.ticki)

/-- `mbx.pending <- false`; the data stay (42 R139). -/
def State.emptyMailbox (s : State) : State :=
  { s with mbx := { s.mbx with pending := false } }

/-- The value `DRAIN` returns, `{pending, data[3:0]}` as read (30 R85, 42 R139). -/
def drainValue (b : Mailbox) : Nat := b.pending.toNat * 16 + b.data.toNat

/-- The effect of `DRAIN`: a pending word is dispatched and taken out, or the dispatch refuses and it stays
(42 R139). -/
def State.drain (s : State) : Except Status State :=
  if s.mbx.pending then
    match dispatch s.mbx.data s with
    | .ok t => .ok t.emptyMailbox
    | .error e => .error e
  else .ok s

/-- `DRAIN` (42 R139). -/
def execDrain (s : State) : Result := s.answer (drainValue s.mbx) s.drain

end Sys2Proof.Machine
end

