-- ==== Sys2Proof/Machine/Dispatch.lean ====
section
/-! DEFINITION. The one dispatch from an instruction to its meaning, in the order of spec/opcode_table.json. -/

namespace Sys2Proof.Machine

def exec (i : Instr) (s : State) : Host.Outcome State Fault Refusal :=
  match i with
  | .diff a b d => Sys2Proof.Machine.execDiff a b d s
  | .flp a d => Sys2Proof.Machine.execFlp a d s
  | .sdir a b => Sys2Proof.Machine.execSdir a b s
  | .ticki => Sys2Proof.Machine.execTicki s
  | .plan h d => Sys2Proof.Machine.execPlan h d s
  | .stepf h => Sys2Proof.Machine.execStepf h s
  | .stepb h => Sys2Proof.Machine.execStepb h s
  | .tryStep h => Sys2Proof.Machine.execTry h s
  | .rsto h => Sys2Proof.Machine.execRsto h s
  | .recal h a b d => Sys2Proof.Machine.execRecal h a b d s
  | .tickp => Sys2Proof.Machine.execTickp s
  | .drain => Sys2Proof.Machine.execDrain s
  | .cstart h => Sys2Proof.Machine.execCstart h s
  | .cadv h => Sys2Proof.Machine.execCadv h s
  | .cdrift h => Sys2Proof.Machine.execCdrift h s
  | .bnop => Sys2Proof.Machine.execBnop s
  | .bmovHb => Sys2Proof.Machine.execBmovHb s
  | .bmovHf => Sys2Proof.Machine.execBmovHf s
  | .bhome0011 => Sys2Proof.Machine.execBhome0011 s
  | .bmovMb => Sys2Proof.Machine.execBmovMb s
  | .bmovHbMb => Sys2Proof.Machine.execBmovHbMb s
  | .bmovHfMb => Sys2Proof.Machine.execBmovHfMb s
  | .bhome0111 => Sys2Proof.Machine.execBhome0111 s
  | .bmovMf => Sys2Proof.Machine.execBmovMf s
  | .bmovHbMf => Sys2Proof.Machine.execBmovHbMf s
  | .bmovHfMf => Sys2Proof.Machine.execBmovHfMf s
  | .bhome1011 => Sys2Proof.Machine.execBhome1011 s
  | .bhome1100 => Sys2Proof.Machine.execBhome1100 s
  | .bhome1101 => Sys2Proof.Machine.execBhome1101 s
  | .bhome1110 => Sys2Proof.Machine.execBhome1110 s
  | .bhome1111 => Sys2Proof.Machine.execBhome1111 s
  | .sampleEdge w => Sys2Proof.Machine.execSampleEdge w s
  | .sampleNoEdge c w => Sys2Proof.Machine.execSampleNoEdge c w s

end Sys2Proof.Machine
end

