-- ==== Sys2Proof/Machine/Step.lean ====
section
/-! DEFINITION. One step of the node: the next event of the schedule, performed whole (spec 20 R66, R69). -/

namespace Sys2Proof.Machine

/-- One step: the next event begins; under `rst` the node takes its reset values and nothing that arrives is accepted
(70 R215); a word that decodes runs; a word that does not is refused by its code and writes nothing (60 R192). With no
event to come nothing happens: the block "does nothing by itself between events" (70, section 3; log 3). -/
def step (s : State) : Host.Outcome State Fault Refusal :=
  match s.events with
  | [] => .next s
  | e :: rest =>
    if e.rst then .next (s.beginEvent e rest).resetNode
    else
      match decode s.rly.inClkPrev e.arrival.packet with
      | .ok i => exec i (s.beginEvent e rest)
      | .error r => .next ((s.beginEvent e rest).refuse (statusOf r))

/-- `s` with the packet placed where the next step takes it, under the inputs that stand: a command word or a pin sample
is the next event, for a sample with the clock level before it low, as after reset; a bus word is the pending word of
the mailbox and a `DRAIN` the next event (43, opening; log 3). -/
def State.placePacket (s : State) : Packet → State
  | .command w => s.present { rst := false, inputs := s.inp, arrival := .command w }
  | .sample v =>
    { s with rly := { s.rly with inClkPrev := false } }.present
      { rst := false, inputs := s.inp, arrival := .sample v }
  | .busWord w =>
    { s with mbx := { pending := true, data := w } }.present
      { rst := false, inputs := s.inp, arrival := .command 0xB0000000 }

/-- `s` with the instruction of `nbits` bits whose value is `w` placed for the next step. -/
def State.withFetchWord (s : State) (nbits w : Nat) : State :=
  match tablePacket nbits w with
  | some p => s.placePacket p
  | none => s

end Sys2Proof.Machine
end

