-- ==== Sys2Proof/Machine/Asm.lean ====
section
/-! DEFINITION. The textual form of the operations (spec 30 R90): one operation a line, the mnemonic in capitals, the hand
first where there is one, operands separated by commas. It is a notation of the spec; nothing of the machine reads it. -/

namespace Sys2Proof.Machine

/-- `H` or `M` (30 R90). -/
def Hand.text : Hand → String
  | .hour => "H"
  | .minute => "M"

/-- `F` or `B` (30 R90). -/
def Direction.text : Direction → String
  | .forward => "F"
  | .backward => "B"

/-- A pin level or bit as a digit. -/
def bitText (b : Bool) : String := if b then "1" else "0"

/-- A bus word as four binary digits `MF MB HF HB` (30 R81). -/
def wordText (w : BusWord) : String :=
  bitText (w.getLsbD 3) ++ bitText (w.getLsbD 2) ++ bitText (w.getLsbD 1) ++ bitText (w.getLsbD 0)

/-- Operands in order, separated by a comma and a space. -/
def operandsText : List String → String
  | [] => ""
  | [x] => x
  | x :: y :: r => x ++ ", " ++ operandsText (y :: r)

/-- A mnemonic with its operands. -/
def lineText (m : String) (ops : List String) : String :=
  match ops with
  | [] => m
  | _ :: _ => m ++ " " ++ operandsText ops

/-- The line of an operation (30 R90, R91). -/
def asmLine : Instr → String
  | .diff a b d => lineText "DIFF" [Nat.repr a, Nat.repr b, Direction.text d]
  | .flp a d => lineText "FLP" [Nat.repr a, Direction.text d]
  | .sdir a b => lineText "SDIR" [Nat.repr a, Nat.repr b]
  | .ticki => "TICKI"
  | .plan h d => lineText "PLAN" [Hand.text h, Direction.text d]
  | .stepf h => lineText "STEPF" [Hand.text h]
  | .stepb h => lineText "STEPB" [Hand.text h]
  | .tryStep h => lineText "TRY" [Hand.text h]
  | .rsto h => lineText "RSTO" [Hand.text h]
  | .recal h a b d => lineText "RECAL" [Hand.text h, Nat.repr a, Nat.repr b, Direction.text d]
  | .tickp => "TICKP"
  | .drain => "DRAIN"
  | .cstart h => lineText "CSTART" [Hand.text h]
  | .cadv h => lineText "CADV" [Hand.text h]
  | .cdrift h => lineText "CDRIFT" [Hand.text h]
  | .bnop => "BNOP"
  | .bmovHb => "BMOV HB"
  | .bmovHf => "BMOV HF"
  | .bhome0011 => "BHOME 0011"
  | .bmovMb => "BMOV MB"
  | .bmovHbMb => "BMOV HB,MB"
  | .bmovHfMb => "BMOV HF,MB"
  | .bhome0111 => "BHOME 0111"
  | .bmovMf => "BMOV MF"
  | .bmovHbMf => "BMOV HB,MF"
  | .bmovHfMf => "BMOV HF,MF"
  | .bhome1011 => "BHOME 1011"
  | .bhome1100 => "BHOME 1100"
  | .bhome1101 => "BHOME 1101"
  | .bhome1110 => "BHOME 1110"
  | .bhome1111 => "BHOME 1111"
  | .sampleEdge w => lineText "SAMPLE" ["1", wordText w]
  | .sampleNoEdge c w => lineText "SAMPLE" [bitText c, wordText w]

/-- `@ t`, the time the following events read (30 R90). -/
def timeLine (t : Nat) : String := "@ " ++ Nat.repr t

/-- `HALL h, l`, the level of `hall_n[h]` the following commands read (30 R90). -/
def hallLine (h : Hand) (level : Bool) : String := lineText "HALL" [Hand.text h, bitText level]

/-- `-> v`, an expected response value (30 R90). -/
def responseLine (v : Nat) : String := "-> " ++ Nat.repr v

end Sys2Proof.Machine
end

