-- ==== Sys2Proof/Machine/Chain.lean ====
section
/-! DEFINITION. A daisy chain of nodes (spec 60 R205 to R209): identical nodes, each with its own events and inputs, the
inbound pins of node `k + 1` being the outbound pins of node `k`. Node 0 here is the spec's node 1, driven by the bus
master (R208). -/

namespace Sys2Proof.Machine

/-- What a sample of node `k` reads: the outbound pins of the node before it as they stand, or, at the head of the chain,
the level `v` the bus master drives (60 R208, R209). -/
def chainPins (nodes : List State) (k : Nat) (v : PinSample) : PinSample :=
  match k with
  | 0 => v
  | j + 1 =>
    match nodes[j]? with
    | some up => up.outPins
    | none => v

/-- The event `e` as node `k` of the chain takes it: a sample reads the wires of its hop (60 R209). -/
def chainEvent (nodes : List State) (k : Nat) (e : Event) : Event :=
  match e.arrival with
  | .command _ => e
  | .sample v => { e with arrival := .sample (chainPins nodes k v) }

/-- One event at node `k`; the other nodes keep their state, "the events of different nodes interleave freely"
(60 R209). -/
def chainStep (nodes : List State) (k : Nat) (e : Event) : Host.Outcome (List State) Fault Refusal :=
  match nodes[k]? with
  | none => .next nodes
  | some n =>
    match step (n.present (chainEvent nodes k e)) with
    | .next n' => .next (nodes.set k n')
    | .fault f => .fault f
    | .refused r => .refused r

/-- A schedule of a chain: each entry is a node and its next event, in any order (60 R207). -/
def chainRun (nodes : List State) : List (Nat × Event) → Host.Outcome (List State) Fault Refusal
  | [] => .next nodes
  | (k, e) :: es =>
    match chainStep nodes k e with
    | .next nodes' => chainRun nodes' es
    | .fault f => .fault f
    | .refused r => .refused r

end Sys2Proof.Machine
end

