-- ==== Sys2Proof/Machine/Driver.lean ====
section
/-! DEFINITION. The host's side of the command port: the pseudo-instructions `TICK`, `MOVE`, `SERVICE`, `LOOPBODY`, `HOME`
with their expansions (spec 30 R91, 43 R168, 44 R178). They are expanded by the host, not by the block (60 R213), and no
rule of the block depends on them. -/

namespace Sys2Proof.Machine

/-- The pseudo-instructions of 30 R91. -/
inductive Pseudo where
  | tick
  | move (h : Hand) (n : Int)
  | service (h : Hand)
  | loopBody
  | home (h : Hand) (cap : Nat)
  deriving DecidableEq, Repr

/-- What a host has still to do. -/
inductive HostOp where
  /-- Issue a command. -/
  | issue (i : Instr)
  /-- Issue a command if and only if the last response returned 1. -/
  | ifOne (i : Instr)
  /-- Issue a command until it returns 1 or `cap` calls were made. -/
  | untilOne (i : Instr) (cap : Nat)
  /-- The rest of `untilOne` after a call. -/
  | againUnlessOne (i : Instr) (cap : Nat)
  deriving DecidableEq, Repr

/-- `SERVICE h`: `TRY h`, then `CDRIFT h` if and only if the `TRY` returned 1 (30 R91). -/
def serviceOps (h : Hand) : List HostOp := [.issue (.tryStep h), .ifOne (.cdrift h)]

/-- `TICK`: `TICKP` then `TICKI` (30 R91, 42 R141). -/
def tickOps : List HostOp := [.issue .tickp, .issue .ticki]

/-- The expansion of a pseudo-instruction (30 R91). -/
def Pseudo.expand : Pseudo → List HostOp
  | .tick => tickOps
  | .move h n => List.replicate n.natAbs (.issue (.plan h (if n < 0 then .backward else .forward)))
  | .service h => serviceOps h
  | .loopBody => .issue .drain :: (tickOps ++ serviceOps .hour ++ serviceOps .minute)
  | .home h cap => [.issue (.cstart h), .untilOne (.cadv h) cap]

/-- Whether a response says `OK` and 1. -/
def returnedOne (r : Option Response) : Bool := r == some { status := .ok, value := 1 }

/-- The next command the host issues, given the response to its last one, with what is left to do. -/
def nextIssue (last : Option Response) : List HostOp → Option (Instr × List HostOp)
  | [] => none
  | .issue i :: ops => some (i, ops)
  | .ifOne i :: ops => if returnedOne last then some (i, ops) else nextIssue last ops
  | .untilOne _ 0 :: ops => nextIssue last ops
  | .untilOne i (n + 1) :: ops => some (i, .againUnlessOne i n :: ops)
  | .againUnlessOne _ 0 :: ops => nextIssue last ops
  | .againUnlessOne i (n + 1) :: ops =>
    if returnedOne last then nextIssue last ops else some (i, .againUnlessOne i n :: ops)

/-- A host: what it has to do and the response to its last command. -/
structure Driver where
  ops : List HostOp
  last : Option Response
  deriving DecidableEq, Repr

/-- A turn of the interleaving: a sample of the bus pins, or a turn of the host, each with the inputs it reads (20 R69). -/
inductive Turn where
  | sample (inputs : Inputs) (v : PinSample)
  | host (inputs : Inputs)
  deriving DecidableEq, Repr

/-- The arrival that carries a command, if the instruction is one (30 R84). -/
def Instr.asCommand (i : Instr) : Option Arrival :=
  match encode i with
  | .command w => some (.command w)
  | .sample _ => none
  | .busWord _ => none

/-- One turn of host and node. -/
def driverTurn (d : Driver) (s : State) : Turn → Host.Outcome (Driver × State) Fault Refusal
  | .sample inputs v =>
    match step (s.present { rst := false, inputs := inputs, arrival := .sample v }) with
    | .next t => .next (d, t)
    | .fault f => .fault f
    | .refused r => .refused r
  | .host inputs =>
    match nextIssue d.last d.ops with
    | none => .next (d, s)
    | some (i, ops) =>
      match Instr.asCommand i with
      | none => .next ({ d with ops := ops }, s)
      | some a =>
        match step (s.present { rst := false, inputs := inputs, arrival := a }) with
        | .next t => .next ({ ops := ops, last := t.resp }, t)
        | .fault f => .fault f
        | .refused r => .refused r

/-- The host's work over a given sequence of turns. -/
def driverRun (d : Driver) (s : State) : List Turn → Host.Outcome (Driver × State) Fault Refusal
  | [] => .next (d, s)
  | t :: ts =>
    match driverTurn d s t with
    | .next p => driverRun p.1 p.2 ts
    | .fault f => .fault f
    | .refused r => .refused r

end Sys2Proof.Machine
end

