-- ==== Sys2Proof/Safety.lean ====
section
/-! DEFINITION. The invariants of a node (spec 10 R31, and the ranges of 00 R10, R11), and the words claims about several
events use. -/

namespace Sys2Proof.Machine

/-- What every rule of spec 41 preserves (10 R31 (a), (b), (e)), the range of the timestamp (10 R28), and what the coil
register holds: the pattern of the phase while energized, `0000` otherwise (10 R27, R30). -/
abbrev Sequencer.Inv (c : Config) (m : Sequencer) : Prop :=
  m.position < c.stepsPerRev ∧
  (1 ≤ m.commutationPhase ∧ m.commutationPhase ≤ c.nPhases) ∧
  (planMin c ≤ m.plannedSteps ∧ m.plannedSteps ≤ planMax c) ∧
  m.lastStepTime < 2 ^ c.wTime ∧
  m.coil = (if m.coilsEnergized then coilPattern c m.commutationPhase else 0b0000)

/-- The ranges of the calibration registers (10 R34, R35). -/
abbrev Calibration.Inv (c : Config) (k : Calibration) : Prop :=
  k.stepCount ≤ countMax c ∧ k.enterPosition < c.stepsPerRev

/-- The ranges of the relay's timestamps (10 R40). -/
abbrev Relay.Inv (c : Config) (r : Relay) : Prop :=
  r.lastReceiveTime < 2 ^ c.wTime ∧ r.lastSendTime < 2 ^ c.wTime

/-- The invariant of a node: a legal configuration (70 R224), every register in its range, `now` a `W_TIME`-bit value. -/
abbrev State.Inv (s : State) : Prop :=
  s.cfg.Ok ∧
  (s.seqH.Inv s.cfg ∧ s.seqM.Inv s.cfg) ∧
  (s.calH.Inv s.cfg ∧ s.calM.Inv s.cfg) ∧
  s.rly.Inv s.cfg ∧
  s.inp.now < 2 ^ s.cfg.wTime

/-- An operation performed under fresh inputs: the instruction `i` with the inputs `inp`, no response standing. -/
def execAt (i : Instr) (inp : Inputs) (s : State) : Host.Outcome State Fault Refusal :=
  exec i { s with inp := inp, resp := none }

/-- One operation between two step attempts of hand `h` that neither is `RSTO h`, nor ends a homing run of `h` (which
performs one), nor is a `TRY h` that executes a step (41 R119 (b)). -/
def QuietFor (h : Hand) (x y : State) : Prop :=
  ∃ (i : Instr) (inp : Inputs), execAt i inp x = .next y ∧ i ≠ .rsto h ∧
    (i = .cadv h → y.resp ≠ some { status := .ok, value := 1 }) ∧
    (i = .tryStep h → y.resp ≠ some { status := .ok, value := 1 })

/-- `TRY h` under each of the given inputs in turn, as long as every one executes a step (41 R123). -/
def stepsTaken (h : Hand) (s : State) : List Inputs → Option State
  | [] => some s
  | inp :: rest =>
    match execAt (.tryStep h) inp s with
    | .next t => if t.resp = some { status := .ok, value := 1 } then stepsTaken h t rest else none
    | .fault _ => none
    | .refused _ => none

/-- `CADV h` under each of the given inputs in turn (44 R178). -/
def homingRun (h : Hand) (s : State) : List Inputs → Option State
  | [] => some s
  | inp :: rest =>
    match execAt (.cadv h) inp s with
    | .next t => homingRun h t rest
    | .fault _ => none
    | .refused _ => none

/-- The instructions that name a hand (10 R23, 44). -/
def Instr.hand? : Instr → Option Hand
  | .plan h _ | .stepf h | .stepb h | .tryStep h | .rsto h | .recal h _ _ _ | .cstart h | .cadv h | .cdrift h => some h
  | .diff _ _ _ | .flp _ _ | .sdir _ _ | .ticki | .tickp | .drain => none
  | .bnop | .bmovHb | .bmovHf | .bhome0011 | .bmovMb | .bmovHbMb | .bmovHfMb | .bhome0111 | .bmovMf | .bmovHbMf
  | .bmovHfMf | .bhome1011 | .bhome1100 | .bhome1101 | .bhome1110 | .bhome1111 => none
  | .sampleEdge _ | .sampleNoEdge _ _ => none

/-- The `match`/`mask` table of format K (30 R88). -/
def commandRows : List (CommandWord × CommandWord) :=
  [(0x00000000, 0xFB000000), (0x10000000, 0xFBFFF000), (0x20000000, 0xFF000000), (0x30000000, 0xFFFFFFFF),
   (0x40000000, 0xF3FFFFFF), (0x50000000, 0xF7FFFFFF), (0x60000000, 0xF7FFFFFF), (0x70000000, 0xF7FFFFFF)] ++
  [(0x80000000, 0xF7FFFFFF), (0x90000000, 0xF3000000), (0xA0000000, 0xFFFFFFFF), (0xB0000000, 0xFFFFFFFF),
   (0xC0000000, 0xF7FFFFFF), (0xD0000000, 0xF7FFFFFF), (0xE0000000, 0xF7FFFFFF)]

end Sys2Proof.Machine
end

