-- ==== Sys2Proof/Certificates/Slice0/Obligations.lean ====
section
/-! DEFINITION. The statements for the provers, each a formal reading of rules of spec/. `s.withSeq h m` is `s` with the
registers `seq[h]` replaced, `s.respond st v` is `s` with the response `st, v` delivered. -/

open Sys2Proof Sys2Proof.Machine

/-! ### Position modulo-arithmetic unit -/

/-- 40 R102: `DIFF` answers the steps from `from` to `to` walking in the direction, refuses a position not below `S`,
and writes no state element. -/
def Obligations.DiffAnswersStepsAroundTheRing : Prop :=
  ∀ (s : State) (a b : Nat) (d : Direction),
    exec (.diff a b d) s = .next
      (if a < s.cfg.stepsPerRev ∧ b < s.cfg.stepsPerRev then
        s.respond .ok
          (match d with
          | .forward => if b ≥ a then b - a else s.cfg.stepsPerRev - a + b
          | .backward => if a ≥ b then a - b else s.cfg.stepsPerRev - b + a)
      else s.respond .operandRange 0)

/-- 40 R104: `FLP` answers half the width, from the top of the ring when Backward, refuses a width above `S`, and its
answer lies in the range the rule gives. -/
def Obligations.FlpAnswersTheFieldLeavePosition : Prop :=
  ∀ (s : State) (a : Nat) (d : Direction),
    (exec (.flp a d) s = .next
      (if a ≤ s.cfg.stepsPerRev then
        s.respond .ok
          (match d with
          | .forward => a / 2
          | .backward => s.cfg.stepsPerRev - a / 2)
      else s.respond .operandRange 0)) ∧
    (a ≤ s.cfg.stepsPerRev →
      flp s.cfg a .forward ≤ s.cfg.stepsPerRev / 2 ∧
      s.cfg.stepsPerRev - s.cfg.stepsPerRev / 2 ≤ flp s.cfg a .backward ∧
      flp s.cfg a .backward ≤ s.cfg.stepsPerRev)

/-- 40 R106: `SDIR` answers Forward (1) exactly when the forward distance is strictly smaller, else Backward (0). -/
def Obligations.SdirAnswersForwardOnlyIfStrictlyShorter : Prop :=
  ∀ (s : State) (a b : Nat),
    exec (.sdir a b) s = .next
      (if a < s.cfg.stepsPerRev ∧ b < s.cfg.stepsPerRev then
        s.respond .ok (if diff s.cfg a b .forward < diff s.cfg a b .backward then 1 else 0)
      else s.respond .operandRange 0)

/-- 40 R100: a PMU command changes nothing in the node, answered or refused. -/
def Obligations.PmuCommandsChangeNothing : Prop :=
  ∀ (s : State) (i : Instr),
    ((∃ a b d, i = .diff a b d) ∨ (∃ a d, i = .flp a d) ∨ (∃ a b, i = .sdir a b)) →
    ∃ r : Response, exec i s = .next { s with resp := some r }

/-- 40 R103 (a) to (g): the laws of `diff` on the ring. (a) to (c) are the document's properties; (d) to (g) are the
spec's own inference from R102. -/
def Obligations.DiffLawsOnTheRing : Prop :=
  ∀ (c : Config) (a b : Nat), a < c.stepsPerRev → b < c.stepsPerRev →
    (∀ d, diff c a a d = 0) ∧
    (a ≠ b → diff c a b .forward + diff c b a .forward = c.stepsPerRev) ∧
    (a ≠ b → diff c a b .backward + diff c b a .backward = c.stepsPerRev) ∧
    diff c a b .backward = diff c b a .forward ∧
    (diff c a b .forward : Int) = ((b : Int) - a) % c.stepsPerRev ∧
    (diff c a b .backward : Int) = ((a : Int) - b) % c.stepsPerRev ∧
    (a ≠ b → diff c a b .forward + diff c a b .backward = c.stepsPerRev) ∧
    (a = b → diff c a b .forward + diff c a b .backward = 0) ∧
    (a + diff c a b .forward) % c.stepsPerRev = b ∧
    ((a : Int) - diff c a b .backward) % c.stepsPerRev = b

/-- 40 R107, the spec's own inference from R103 (f) and R106: `sdir` is Forward exactly when twice the forward
distance is below `S`, and the distance in the direction it gives is the smaller of the two and at most `S / 2`. -/
def Obligations.ShortestDirectionIsShortest : Prop :=
  ∀ (c : Config) (a b : Nat), a < c.stepsPerRev → b < c.stepsPerRev → a ≠ b →
    (sdir c a b = .forward ↔ 2 * diff c a b .forward < c.stepsPerRev) ∧
    diff c a b (sdir c a b) = min (diff c a b .forward) (diff c a b .backward) ∧
    diff c a b (sdir c a b) ≤ c.stepsPerRev / 2

/-- 70 R239, its arithmetic, the spec's own inference: in the frame homing sets up, a backward crossing of a field of
width `w` by a hand whose counter is exact measures `w` and reads one (even `w`) or two (odd `w`) steps beyond `flp(w,
Backward)`. -/
def Obligations.BackwardCrossingResidual : Prop :=
  ∀ (c : Config) (w : Nat), 2 ≤ w → w + 4 < c.stepsPerRev →
    diff c (w / 2 - 1) (c.stepsPerRev - (w - w / 2) - 1) .backward = w ∧
    sdir c (c.stepsPerRev - (w - w / 2) - 1) (flp c w .backward) = .forward ∧
    diff c (c.stepsPerRev - (w - w / 2) - 1) (flp c w .backward) .forward = 1 + w % 2

/-! ### Stepper commutation sequencer -/

/-- 41 R111: `PLAN` changes `planned_steps` by one and nothing else, or refuses with `PlanOverflow` and writes
nothing. -/
def Obligations.PlanQueuesOneStep : Prop :=
  ∀ (s : State) (h : Hand) (d : Direction) (p : Int),
    p = (s.seq h).plannedSteps + (if d = .forward then 1 else -1) →
    exec (.plan h d) s = .next
      (if p > 2 ^ (s.cfg.wPlan - 1) - 1 ∨ p < -2 ^ (s.cfg.wPlan - 1) then s.respond .planOverflow 0
      else (s.withSeq h { s.seq h with plannedSteps := p }).respond .ok 0)

/-- 41 R114: `STEPF` takes the next phase, drives its entry of the table, moves the position up by one with wraparound,
records the direction, and leaves steps owed, time and everything else as they are. -/
def Obligations.StepForwardTakesTheNextPhase : Prop :=
  ∀ (s : State) (h : Hand), s.Inv →
    ∃ (p : Nat) (k : BitVec 4),
      p = (if (s.seq h).commutationPhase = s.cfg.nPhases then 1 else (s.seq h).commutationPhase + 1) ∧
      s.cfg.coilTable[p - 1]? = some k ∧
      exec (.stepf h) s = .next ((s.withSeq h { s.seq h with
        commutationPhase := p
        coil := k
        position := if (s.seq h).position = s.cfg.stepsPerRev - 1 then 0 else (s.seq h).position + 1
        lastDirection := .forward
        coilsEnergized := true }).respond .ok 0)

/-- 41 R115: `STEPB` is the mirror of `STEPF`; and a step followed by its inverse restores position, phase and (when
the coils were energized) coil pattern, and leaves the direction at the second step's and the coils energized. The
second part is the spec's own inference. Its sentence says that `coil` is restored without condition; that fails for
de-energized coils: `coil` read 0000 before, and the two steps leave it at the pattern of the phase (R114), so the
clause asks for energized coils. -/
def Obligations.StepBackwardTakesThePreviousPhase : Prop :=
  ∀ (s : State) (h : Hand), s.Inv →
    (∃ (p : Nat) (k : BitVec 4),
      p = (if (s.seq h).commutationPhase = 1 then s.cfg.nPhases else (s.seq h).commutationPhase - 1) ∧
      s.cfg.coilTable[p - 1]? = some k ∧
      exec (.stepb h) s = .next ((s.withSeq h { s.seq h with
        commutationPhase := p
        coil := k
        position := if (s.seq h).position = 0 then s.cfg.stepsPerRev - 1 else (s.seq h).position - 1
        lastDirection := .backward
        coilsEnergized := true }).respond .ok 0)) ∧
    (∀ (i j : Instr) (d : Direction),
      ((i = .stepf h ∧ j = .stepb h ∧ d = .backward) ∨ (i = .stepb h ∧ j = .stepf h ∧ d = .forward)) →
      ∃ t u, exec i s = .next t ∧ exec j t = .next u ∧
        (u.seq h).position = (s.seq h).position ∧
        (u.seq h).commutationPhase = (s.seq h).commutationPhase ∧
        ((s.seq h).coilsEnergized = true → (u.seq h).coil = (s.seq h).coil) ∧
        (u.seq h).lastDirection = d ∧ (u.seq h).coilsEnergized = true)

/-- 41 R118: the four lines of `TRY`, a step being the one `STEPF` or `STEPB` would execute. -/
def Obligations.TryFollowsItsFourLines : Prop :=
  ∀ (s : State) (h : Hand) (e : Nat), e = elapsed s.cfg s.inp.now (s.seq h).lastStepTime →
    ((s.seq h).coilsEnergized = false → (s.seq h).plannedSteps = 0 →
      exec (.tryStep h) s = .next (s.respond .ok 0)) ∧
    ((s.seq h).coilsEnergized = true → (s.seq h).plannedSteps = 0 → e > s.cfg.standstillTimeout →
      exec (.tryStep h) s = .next
        ((s.withSeq h { s.seq h with coil := 0b0000, coilsEnergized := false }).respond .ok 0)) ∧
    ((s.seq h).coilsEnergized = true → (s.seq h).plannedSteps = 0 → e ≤ s.cfg.standstillTimeout →
      exec (.tryStep h) s = .next (s.respond .ok 0)) ∧
    ((s.seq h).plannedSteps ≠ 0 → e < s.cfg.minStepInterval →
      exec (.tryStep h) s = .next (s.respond .ok 0)) ∧
    ((s.seq h).plannedSteps > 0 → e ≥ s.cfg.minStepInterval →
      ∃ u, exec (.stepf h) s = .next u ∧ exec (.tryStep h) s = .next ((u.withSeq h { u.seq h with
        plannedSteps := (s.seq h).plannedSteps - 1, lastStepTime := s.inp.now }).respond .ok 1)) ∧
    ((s.seq h).plannedSteps < 0 → e ≥ s.cfg.minStepInterval →
      ∃ u, exec (.stepb h) s = .next u ∧ exec (.tryStep h) s = .next ((u.withSeq h { u.seq h with
        plannedSteps := (s.seq h).plannedSteps + 1, lastStepTime := s.inp.now }).respond .ok 1))

/-- 41 R119 (a), and (c), the spec's own inference: a `TRY` moves position and phase together by at most one step, in
the direction owed, and `|planned_steps|` never grows. -/
def Obligations.TryExecutesAtMostOneStep : Prop :=
  ∀ (s t : State) (h : Hand), s.Inv → exec (.tryStep h) s = .next t →
    (((t.seq h).position = (s.seq h).position ∧ (t.seq h).commutationPhase = (s.seq h).commutationPhase ∧
        (t.seq h).plannedSteps = (s.seq h).plannedSteps) ∨
      ((t.seq h).position = ((s.seq h).position + 1) % s.cfg.stepsPerRev ∧
        (t.seq h).commutationPhase = nextPhase s.cfg (s.seq h).commutationPhase ∧
        (t.seq h).plannedSteps = (s.seq h).plannedSteps - 1 ∧ 0 < (s.seq h).plannedSteps) ∨
      ((((t.seq h).position : Int) = ((s.seq h).position - 1) % s.cfg.stepsPerRev) ∧
        (t.seq h).commutationPhase = prevPhase s.cfg (s.seq h).commutationPhase ∧
        (t.seq h).plannedSteps = (s.seq h).plannedSteps + 1 ∧ (s.seq h).plannedSteps < 0)) ∧
    (t.seq h).plannedSteps.natAbs ≤ (s.seq h).plannedSteps.natAbs

/-- 41 R119 (b), in the form the spec infers from R118: two `TRY h` that both return 1, with no `RSTO h` and no other
step of `TRY h` between them, are at least `MIN_STEP_INTERVAL` apart in the modular difference. -/
def Obligations.TryNeverStepsTwiceWithinTheInterval : Prop :=
  ∀ (h : Hand) (s t u v : State),
    exec (.tryStep h) s = .next t → t.resp = some { status := .ok, value := 1 } →
    Relation.ReflTransGen (QuietFor h) t u →
    exec (.tryStep h) u = .next v → v.resp = some { status := .ok, value := 1 } →
    s.cfg.minStepInterval ≤ elapsed s.cfg u.inp.now s.inp.now

/-- 10 R28: `last_step_time` is written by a step that `TRY` executed, with `now`, and by `RSTO` (also the one that
ends a homing run), with 0; nothing else writes it. -/
def Obligations.OnlyTryAndRstoWriteTheStepTime : Prop :=
  ∀ (i : Instr) (s t : State) (h : Hand), exec i s = .next t →
    (t.seq h).lastStepTime = (s.seq h).lastStepTime ∨
    (i = .tryStep h ∧ (t.seq h).lastStepTime = s.inp.now ∧ t.resp = some { status := .ok, value := 1 }) ∨
    ((i = .rsto h ∨ (i = .cadv h ∧ (t.cal h).phase = .calibrated)) ∧ (t.seq h).lastStepTime = 0)

/-- 41 R120: `RSTO` zeroes position, time and steps owed, de-energizes the coils, and keeps phase and direction. -/
def Obligations.RstoRebasesTheOrigin : Prop :=
  ∀ (s : State) (h : Hand),
    exec (.rsto h) s = .next ((s.withSeq h
      { position := 0, commutationPhase := (s.seq h).commutationPhase, plannedSteps := 0, coilsEnergized := false,
        lastStepTime := 0, lastDirection := (s.seq h).lastDirection, coil := 0b0000 }).respond .ok 0)

/-- 41 R122: `RECAL` adds `off` steps owed in the direction and rewrites the position to `target` offset by `off` the
other way; it refuses operands out of range first, then an overflow, and then writes nothing. -/
def Obligations.RecalAppliesTheSoftCorrection : Prop :=
  ∀ (s : State) (h : Hand) (target off : Nat) (d : Direction) (p q : Int),
    p = (s.seq h).plannedSteps + (if d = .forward then (off : Int) else -off) →
    q = (if d = .forward then ((target : Int) - off) % s.cfg.stepsPerRev
      else ((target : Int) + off) % s.cfg.stepsPerRev) →
    exec (.recal h target off d) s = .next
      (if target ≥ s.cfg.stepsPerRev ∨ off ≥ s.cfg.stepsPerRev then s.respond .operandRange 0
      else if p > 2 ^ (s.cfg.wPlan - 1) - 1 ∨ p < -2 ^ (s.cfg.wPlan - 1) then s.respond .planOverflow 0
      else (s.withSeq h { s.seq h with plannedSteps := p, position := q.toNat }).respond .ok 0)

/-- 41 R123, its exact part, the spec's own inference from R122 and R103 (e): after a `RECAL` the position lies `off`
short of `target` in the direction, and from no steps owed the `off` steps then taken bring it onto `target`. The rule
allows any operation between the `TRY`s that does not write `seq[h]`; this says it of `TRY`s with nothing between
(`stepsTaken`). -/
def Obligations.RecalConvergesOnTheTarget : Prop :=
  ∀ (s t : State) (h : Hand) (target off : Nat) (d : Direction),
    exec (.recal h target off d) s = .next t → t.resp = some { status := .ok, value := 0 } →
    diff s.cfg (t.seq h).position target d = off ∧
    diff s.cfg target (t.seq h).position d.opp = off ∧
    ((s.seq h).plannedSteps = 0 →
      ∀ (inputs : List Inputs) (u : State), inputs.length = off → stepsTaken h t inputs = some u →
        (u.seq h).position = target ∧ (u.seq h).plannedSteps = 0)

/-- 10 R31 (d), R25 and 90 C8: no operation changes the commutation phase without the position; where it changes it,
both move by one step the same way. (`RSTO` and `RECAL` change the position alone.) -/
def Obligations.PhaseMovesOnlyWithPosition : Prop :=
  ∀ (i : Instr) (s t : State) (h : Hand), s.Inv → exec i s = .next t →
    (t.seq h).commutationPhase = (s.seq h).commutationPhase ∨
    ((t.seq h).commutationPhase = nextPhase s.cfg (s.seq h).commutationPhase ∧
      (t.seq h).position = ((s.seq h).position + 1) % s.cfg.stepsPerRev ∧ (t.seq h).lastDirection = .forward) ∨
    ((t.seq h).commutationPhase = prevPhase s.cfg (s.seq h).commutationPhase ∧
      ((t.seq h).position : Int) = ((s.seq h).position - 1) % s.cfg.stepsPerRev ∧
      (t.seq h).lastDirection = .backward)

/-- 10 R27, its derived sentence: the coils count as energized exactly when some coil pin is high. -/
def Obligations.EnergizedExactlyWhenACoilIsDriven : Prop :=
  ∀ (s : State) (h : Hand), s.Inv → ((s.seq h).coilsEnergized = true ↔ (s.seq h).coil ≠ 0b0000)

/-! ### Synchronous bus relay -/

/-- 42 R133 and R131: a sample with a rising edge performs the handler: forward while relaying, else latch; then the
clock level is remembered. A sample without an edge remembers the clock level and does nothing else. That the two
rows' meanings do not test `in_clk_prev` themselves, so that this holds for either value of it, is the model's choice:
the edge test stands in the decoder (log 8, DEDUCED from R131). -/
def Obligations.SamplesLatchForwardOrPass : Prop :=
  ∀ (s : State) (w : BusWord) (c : Bool),
    (s.rly.relaying = true → exec (.sampleEdge w) s = .next { s with
      rly := { relaying := true, clockLineHigh := true, outData := w, lastReceiveTime := s.inp.now,
               lastSendTime := s.inp.now, inClkPrev := true } }) ∧
    (s.rly.relaying = false → exec (.sampleEdge w) s = .next { s with
      mbx := { pending := true, data := w }
      rly := { relaying := true, clockLineHigh := s.rly.clockLineHigh, outData := s.rly.outData,
               lastReceiveTime := s.inp.now, lastSendTime := s.rly.lastSendTime, inClkPrev := true } }) ∧
    exec (.sampleNoEdge c w) s = .next { s with rly := { s.rly with inClkPrev := c } }

/-- 42 R131: in a step, a pin sample runs the edge handler exactly when it reads the clock high and the sample before
read it low; in every case the level it reads is what the next sample compares with. That the sample is the head of a
schedule, and that the edge test stands in the decoder, are the model's reading (logs 3 and 8). -/
def Obligations.SampleDetectsTheRisingEdge : Prop :=
  ∀ (s : State) (inp : Inputs) (v : PinSample) (rest : List Event),
    s.events = { rst := false, inputs := inp, arrival := .sample v } :: rest →
    ∃ t, step s = .next t ∧ t.rly.inClkPrev = v.getLsbD 4 ∧
      ((v.getLsbD 4 = true ∧ s.rly.inClkPrev = false) →
        exec (.sampleEdge (v.extractLsb' 0 4)) (s.beginEvent { rst := false, inputs := inp, arrival := .sample v } rest)
          = .next t) ∧
      (¬ (v.getLsbD 4 = true ∧ s.rly.inClkPrev = false) →
        t = { s.beginEvent { rst := false, inputs := inp, arrival := .sample v } rest with
          rly := { s.rly with inClkPrev := v.getLsbD 4 } })

/-- 42 R137: `TICKP` drops the outbound clock when a pulse has lasted longer than `MIN_PULSE_WIDTH`, and else changes
nothing. -/
def Obligations.TickpEndsThePulse : Prop :=
  ∀ s : State,
    exec .tickp s = .next
      ((if s.rly.clockLineHigh = true ∧ elapsed s.cfg s.inp.now s.rly.lastSendTime > s.cfg.minPulseWidth then
        { s with rly := { s.rly with clockLineHigh := false } } else s).respond .ok 0)

/-- 42 R138: `TICKI` clears `relaying` and zeroes the outbound data lines after the idle timeout, and else changes
nothing. -/
def Obligations.TickiReleasesTheRelay : Prop :=
  ∀ s : State,
    exec .ticki s = .next
      ((if s.rly.relaying = true ∧
          elapsed s.cfg s.inp.now s.rly.lastReceiveTime > s.cfg.interInstructionTimeout then
        { s with rly := { s.rly with relaying := false, outData := 0b0000 } } else s).respond .ok 0)

/-- 00 R11: elapsed time is unsigned subtraction modulo `2^W_TIME`: for two `W_TIME`-bit times it is their difference,
plus `2^W_TIME` when the counter wrapped, and it is a `W_TIME`-bit value. -/
def Obligations.ElapsedTimeWraps : Prop :=
  ∀ (c : Config) (now last : Nat), now < 2 ^ c.wTime → last < 2 ^ c.wTime →
    elapsed c now last = (if last ≤ now then now - last else 2 ^ c.wTime - last + now) ∧
    elapsed c now last < 2 ^ c.wTime ∧
    (last + elapsed c now last) % 2 ^ c.wTime = now

/-- 42 R139 with 43 R151: `DRAIN` answers the pending flag and the data; with no word pending it does nothing else; a
trigger word restarts the homing of both hands; any other word plans one step for each set flag; the mailbox is emptied
and keeps its data; and if a step could not be planned the whole `DRAIN` is refused. -/
def Obligations.DrainDispatchesThePendingWord : Prop :=
  ∀ (s : State) (pH pM : Int),
    pH = s.seqH.plannedSteps + (s.mbx.data.getLsbD 1).toNat - (s.mbx.data.getLsbD 0).toNat →
    pM = s.seqM.plannedSteps + (s.mbx.data.getLsbD 3).toNat - (s.mbx.data.getLsbD 2).toNat →
    s.Inv →
    (s.mbx.pending = false → exec .drain s = .next (s.respond .ok s.mbx.data.toNat)) ∧
    (s.mbx.pending = true → trig s.mbx.data = true →
      exec .drain s = .next ({ s with
        calH := { s.calH with stepCount := 0, phase := .findField }
        calM := { s.calM with stepCount := 0, phase := .findField }
        mbx := { pending := false, data := s.mbx.data } }.respond .ok (16 + s.mbx.data.toNat))) ∧
    (s.mbx.pending = true → trig s.mbx.data = false →
      exec .drain s = .next
        (if pH > planMax s.cfg ∨ pH < planMin s.cfg ∨ pM > planMax s.cfg ∨ pM < planMin s.cfg then
          s.respond .planOverflow 0
        else { s with
          seqH := { s.seqH with plannedSteps := pH }
          seqM := { s.seqM with plannedSteps := pM }
          mbx := { pending := false, data := s.mbx.data } }.respond .ok (16 + s.mbx.data.toNat)))

/-- 42 R141, the spec's own inference from R137 and R138: the two halves of `TICK` give the same state in either order
when no event falls between them. -/
def Obligations.TickHalvesCommute : Prop :=
  ∀ (s t u t' u' : State),
    exec .tickp s = .next t → exec .ticki t = .next u →
    exec .ticki s = .next t' → exec .tickp t' = .next u' → u = u'

/-- 42 R140, its derived sentence, with R133: only a latching edge makes a word pending, and it latches the word of
its own sample. -/
def Obligations.OnlyALatchingEdgeMakesAWordPending : Prop :=
  ∀ (i : Instr) (s t : State), exec i s = .next t → s.mbx.pending = false → t.mbx.pending = true →
    ∃ w, i = .sampleEdge w ∧ s.rly.relaying = false ∧ t.mbx.data = w ∧ t.rly.relaying = true

/-- 20 R73: while `relaying` is true no operation puts a word into the mailbox or changes the word in it. -/
def Obligations.RelayingProtectsTheMailbox : Prop :=
  ∀ (i : Instr) (s t : State), exec i s = .next t → s.rly.relaying = true →
    t.mbx.data = s.mbx.data ∧ (t.mbx.pending = true → s.mbx.pending = true)

/-- 42 R143, the spec's own inference from R133 and R137: an outbound pulse ends in a `TICKP` performed more than
`MIN_PULSE_WIDTH` after the last send, and in no other operation; and a pulse begins only in a forwarding edge. -/
def Obligations.PulseLastsBeyondItsMinimum : Prop :=
  ∀ (i : Instr) (s t : State), exec i s = .next t →
    (s.rly.clockLineHigh = true → t.rly.clockLineHigh = false →
      i = .tickp ∧ s.cfg.minPulseWidth < elapsed s.cfg s.inp.now s.rly.lastSendTime) ∧
    (s.rly.clockLineHigh = false → t.rly.clockLineHigh = true →
      ∃ w, i = .sampleEdge w ∧ s.rly.relaying = true ∧ t.rly.outData = w ∧ t.rly.lastSendTime = s.inp.now)

/-- 20 R75: which operations write which output pins; every other operation leaves them holding what they held. -/
def Obligations.OutputPinsHoldTheirLevel : Prop :=
  ∀ (i : Instr) (s t : State), exec i s = .next t →
    (t.rly.outData = s.rly.outData ∨ (∃ w, i = .sampleEdge w ∧ s.rly.relaying = true) ∨ i = .ticki) ∧
    (t.outClk = s.outClk ∨ (∃ w, i = .sampleEdge w ∧ s.rly.relaying = true) ∨ i = .tickp) ∧
    (∀ h, (t.seq h).coil = (s.seq h).coil ∨
      i = .stepf h ∨ i = .stepb h ∨ i = .tryStep h ∨ i = .rsto h ∨ i = .cadv h)

/-! ### Bus words -/

/-- 43 R152 to R154, R156 to R158, R160 to R162: `BNOP` and the eight `BMOV` words, each with its word and the change
it makes to the two counts of steps owed, nothing else changed; refused as a whole if a count would leave its range
(R151). That the word's own instruction records the refusal as the response `PlanOverflow` is the model's choice (log
6, DEDUCED): the rules give the answer to the `DRAIN` that dispatches the word. -/
def Obligations.MoveWordsPlanOneStepPerFlag : Prop :=
  ∀ (s : State) (i : Instr) (w : BusWord) (dH dM : Int), s.Inv →
    (i, w, dH, dM) ∈ ([(.bnop, 0b0000, 0, 0), (.bmovHb, 0b0001, -1, 0), (.bmovHf, 0b0010, 1, 0),
      (.bmovMb, 0b0100, 0, -1), (.bmovHbMb, 0b0101, -1, -1), (.bmovHfMb, 0b0110, 1, -1), (.bmovMf, 0b1000, 0, 1),
      (.bmovHbMf, 0b1001, -1, 1), (.bmovHfMf, 0b1010, 1, 1)] : List (Instr × BusWord × Int × Int)) →
    decodeBusWord w = i ∧
    exec i s = .next
      (if planMin s.cfg ≤ s.seqH.plannedSteps + dH ∧ s.seqH.plannedSteps + dH ≤ planMax s.cfg ∧
          planMin s.cfg ≤ s.seqM.plannedSteps + dM ∧ s.seqM.plannedSteps + dM ≤ planMax s.cfg then
        { s with
          seqH := { s.seqH with plannedSteps := s.seqH.plannedSteps + dH }
          seqM := { s.seqM with plannedSteps := s.seqM.plannedSteps + dM } }
      else s.respond .planOverflow 0)

/-- 43 R155, R159, R163 to R167: the seven `BHOME` words, each with its word, restart the homing of both hands and
change nothing else. That a word's own instruction has this effect apart from its `DRAIN`, without an answer and
without the mailbox, is the model's choice (log 6, DEDUCED). -/
def Obligations.HomeWordsRestartBothHands : Prop :=
  ∀ (s : State) (i : Instr) (w : BusWord),
    (i, w) ∈ ([(.bhome0011, 0b0011), (.bhome0111, 0b0111), (.bhome1011, 0b1011), (.bhome1100, 0b1100),
      (.bhome1101, 0b1101), (.bhome1110, 0b1110), (.bhome1111, 0b1111)] : List (Instr × BusWord)) →
    decodeBusWord w = i ∧
    exec i s = .next { s with
      calH := { s.calH with stepCount := 0, phase := .findField }
      calM := { s.calM with stepCount := 0, phase := .findField } }

/-- 43 opening and R150: a bus word takes effect when `DRAIN` finds it pending: the `DRAIN` has the effect of the word's
own instruction and empties the mailbox, or is refused when that instruction is. That a word has an effect apart from
its `DRAIN`, and records its own refusal, is the model's choice (log 6, DEDUCED). -/
def Obligations.DrainRunsTheWordInTheMailbox : Prop :=
  ∀ (s : State) (w : BusWord), s.mbx = { pending := true, data := w } → s.resp = none →
    ∃ t, exec (decodeBusWord w) s = .next t ∧
      ((t.resp = none ∧
        exec .drain s = .next ({ t with mbx := { pending := false, data := w } }.respond .ok (16 + w.toNat))) ∨
       (t = s.respond .planOverflow 0 ∧ exec .drain s = .next t))

/-! ### Calibration -/

/-- 44 R171: `CSTART` resets the count and sets the phase to FindField, writes nothing else, and two in a row leave the
same state as one. -/
def Obligations.CstartRestartsHoming : Prop :=
  ∀ (s t : State) (h : Hand),
    t = (s.withCal h { s.cal h with stepCount := 0, phase := .findField }).respond .ok 0 →
    exec (.cstart h) s = .next t ∧ exec (.cstart h) t = .next t

/-- 44 R173: `CADV` in phase LeaveField. -/
def Obligations.CadvLeavesTheField : Prop :=
  ∀ (s : State) (h : Hand), (s.cal h).phase = .leaveField →
    ((s.cal h).stepCount = 0 →
      exec (.cadv h) s = .next ((s.withCal h { s.cal h with phase := .findField }).respond .ok 0)) ∧
    ((s.cal h).stepCount ≠ 0 →
      ∃ u, exec (.stepb h) s = .next u ∧ exec (.cadv h) s = .next
        ((u.withCal h { s.cal h with stepCount := (s.cal h).stepCount - 1 }).respond .ok 0))

/-- 44 R174: `CADV` in phase FindField; `hall_n[h]` low is in the field. -/
def Obligations.CadvFindsTheField : Prop :=
  ∀ (s : State) (h : Hand), (s.cal h).phase = .findField →
    (s.inp.hall h = false → (s.cal h).stepCount ≤ s.cfg.minStepsOutsideField →
      exec (.cadv h) s = .next ((s.withCal h { s.cal h with
        stepCount := s.cfg.minStepsOutsideField + 1, phase := .leaveField }).respond .ok 0)) ∧
    (s.inp.hall h = false → (s.cal h).stepCount > s.cfg.minStepsOutsideField →
      exec (.cadv h) s = .next ((s.withCal h { s.cal h with stepCount := 0, phase := .inField }).respond .ok 0)) ∧
    (s.inp.hall h = true → (s.cal h).stepCount = 2 ^ s.cfg.wCnt - 1 →
      exec (.cadv h) s = .next (s.respond .countOverflow 0)) ∧
    (s.inp.hall h = true → (s.cal h).stepCount ≠ 2 ^ s.cfg.wCnt - 1 →
      ∃ u, exec (.stepf h) s = .next u ∧ exec (.cadv h) s = .next
        ((u.withCal h { s.cal h with stepCount := (s.cal h).stepCount + 1 }).respond .ok 0))

/-- 44 R175: `CADV` in phase InField. -/
def Obligations.CadvMeasuresTheField : Prop :=
  ∀ (s : State) (h : Hand), (s.cal h).phase = .inField →
    (s.inp.hall h = true →
      exec (.cadv h) s = .next ((s.withCal h { s.cal h with
        stepCount := (s.cal h).stepCount / 2, phase := .centering }).respond .ok 0)) ∧
    (s.inp.hall h = false → (s.cal h).stepCount = 2 ^ s.cfg.wCnt - 1 →
      exec (.cadv h) s = .next (s.respond .countOverflow 0)) ∧
    (s.inp.hall h = false → (s.cal h).stepCount ≠ 2 ^ s.cfg.wCnt - 1 →
      ∃ u, exec (.stepf h) s = .next u ∧ exec (.cadv h) s = .next
        ((u.withCal h { s.cal h with stepCount := (s.cal h).stepCount + 1 }).respond .ok 0))

/-- 44 R176: `CADV` in phase Centering; the last call performs `RSTO h` and returns 1. -/
def Obligations.CadvCentersAndSetsTheOrigin : Prop :=
  ∀ (s : State) (h : Hand), (s.cal h).phase = .centering →
    ((s.cal h).stepCount = 0 →
      ∃ u, exec (.rsto h) s = .next u ∧ exec (.cadv h) s = .next
        ((u.withCal h { s.cal h with ignoreNextField := true, phase := .calibrated }).respond .ok 1)) ∧
    ((s.cal h).stepCount ≠ 0 →
      ∃ u, exec (.stepb h) s = .next u ∧ exec (.cadv h) s = .next
        ((u.withCal h { s.cal h with stepCount := (s.cal h).stepCount - 1 }).respond .ok 0))

/-- 44 R172: `CADV` returns 1 exactly when the phase after the call is Calibrated, does nothing once it is Calibrated,
and refuses only with `CountOverflow`, writing nothing. -/
def Obligations.CadvReturnsOneExactlyWhenCalibrated : Prop :=
  ∀ (s : State) (h : Hand), ∃ t, exec (.cadv h) s = .next t ∧
    ((s.cal h).phase = .calibrated → t = s.respond .ok 1) ∧
    (t.resp = some { status := .ok, value := if (t.cal h).phase = .calibrated then 1 else 0 } ∨
      (t = s.respond .countOverflow 0 ∧ (s.cal h).stepCount = 2 ^ s.cfg.wCnt - 1 ∧
        ((s.cal h).phase = .findField ∨ (s.cal h).phase = .inField)))

/-- 44 R177, the spec's own inference from R174 to R176: a homing run that has entered the field and finds it `w`
steps wide ends calibrated: the hand goes `w` steps forward and `w / 2` back, and there the origin is set, with no
step owed, the coils off and the next field ignored. -/
def Obligations.HomingCentersOnTheField : Prop :=
  ∀ (s : State) (h : Hand) (w : Nat) (inside back : List Inputs) (out last : Inputs),
    s.Inv → (s.cal h).phase = .inField → (s.cal h).stepCount = 0 → w ≤ 2 ^ s.cfg.wCnt - 1 →
    inside.length = w → (∀ inp ∈ inside, inp.hall h = false) → out.hall h = true → back.length = w / 2 →
    ∃ t u, homingRun h s (inside ++ out :: back) = some t ∧
      (t.seq h).position = ((s.seq h).position + (w - w / 2)) % s.cfg.stepsPerRev ∧
      execAt (.cadv h) last t = .next u ∧ u.resp = some { status := .ok, value := 1 } ∧
      (u.cal h).phase = .calibrated ∧ (u.cal h).ignoreNextField = true ∧
      (u.seq h).position = 0 ∧ (u.seq h).plannedSteps = 0 ∧ (u.seq h).coilsEnergized = false ∧
      (u.seq h).commutationPhase =
        (prevPhase s.cfg)^[w / 2] ((nextPhase s.cfg)^[w] (s.seq h).commutationPhase)

/-- 10 R36: Calibrated is left only by an explicit restart: `CSTART h`, a `BHOME` word, or the `DRAIN` that dispatches
one. -/
def Obligations.CalibratedIsLeftOnlyByARestart : Prop :=
  ∀ (i : Instr) (s t : State) (h : Hand), exec i s = .next t →
    (s.cal h).phase = .calibrated → (t.cal h).phase ≠ .calibrated →
    i = .cstart h ∨ (∃ w, trig w = true ∧ i = decodeBusWord w) ∨
    (i = .drain ∧ s.mbx.pending = true ∧ trig s.mbx.data = true)

/-- 44 R180, the paths that correct nothing: no transition, entering, a reversed crossing, an ignored crossing, a
width or an offset below its threshold. -/
def Obligations.DriftCheckWithoutCorrection : Prop :=
  ∀ (s : State) (h : Hand) (k : Calibration) (m : Sequencer) (width target off : Nat),
    k = s.cal h → m = s.seq h →
    width = diff s.cfg k.enterPosition m.position k.enterDirection →
    target = flp s.cfg width k.enterDirection →
    off = diff s.cfg m.position target (sdir s.cfg m.position target) →
    ((s.inp.hall h = !k.trackingInField) → exec (.cdrift h) s = .next (s.respond .ok 0)) ∧
    (s.inp.hall h = false → k.trackingInField = false →
      exec (.cdrift h) s = .next ((s.withCal h { k with
        enterPosition := m.position, enterDirection := m.lastDirection, trackingInField := true }).respond .ok 0)) ∧
    (s.inp.hall h = true → k.trackingInField = true → k.enterDirection ≠ m.lastDirection →
      exec (.cdrift h) s = .next ((s.withCal h { k with trackingInField := false }).respond .ok 0)) ∧
    (s.inp.hall h = true → k.trackingInField = true → k.enterDirection = m.lastDirection →
      k.ignoreNextField = true →
      exec (.cdrift h) s = .next
        ((s.withCal h { k with trackingInField := false, ignoreNextField := false }).respond .ok 0)) ∧
    (s.inp.hall h = true → k.trackingInField = true → k.enterDirection = m.lastDirection →
      k.ignoreNextField = false →
      (width < s.cfg.minWidthForRecalibration ∨ off < s.cfg.minStepsOffForRecalibration) →
      exec (.cdrift h) s = .next ((s.withCal h { k with trackingInField := false }).respond .ok 0))

/-- 44 R180, R181 (f), (g), and (k), the spec's own inference: a measured crossing that is wide enough and far enough
off performs one `RECAL` with half the offset and sets `ignore_next_field`, or, where that `RECAL` would overflow, the
whole `CDRIFT` writes nothing; the target is a position, the halved offset at most `S / 4`, and an out-of-range
refusal never happens. -/
def Obligations.DriftCheckCorrectsHalfTheOffset : Prop :=
  ∀ (s : State) (h : Hand) (k : Calibration) (m : Sequencer) (width target off : Nat) (d : Direction) (p q : Int),
    s.Inv → k = s.cal h → m = s.seq h →
    width = diff s.cfg k.enterPosition m.position k.enterDirection →
    target = flp s.cfg width k.enterDirection →
    d = sdir s.cfg m.position target →
    off = diff s.cfg m.position target d →
    s.inp.hall h = true → k.trackingInField = true → k.enterDirection = m.lastDirection →
    k.ignoreNextField = false →
    s.cfg.minWidthForRecalibration ≤ width → s.cfg.minStepsOffForRecalibration ≤ off →
    p = m.plannedSteps + (if d = .forward then ((off / 2 : Nat) : Int) else -((off / 2 : Nat) : Int)) →
    q = (if d = .forward then ((target : Int) - (off / 2 : Nat)) % s.cfg.stepsPerRev
      else ((target : Int) + (off / 2 : Nat)) % s.cfg.stepsPerRev) →
    target < s.cfg.stepsPerRev ∧ off / 2 ≤ s.cfg.stepsPerRev / 4 ∧
    exec (.cdrift h) s = .next
      (if p > planMax s.cfg ∨ p < planMin s.cfg then s.respond .planOverflow 0
      else ((s.withCal h { k with trackingInField := false, ignoreNextField := true }).withSeq h
        { m with plannedSteps := p, position := q.toNat }).respond .ok 0)

/-! ### The whole machine -/

/-- 10 R45 and 70 R216: what reset leaves in every state element, for every configuration, and at the pins. -/
def Obligations.ResetLeavesTheTablesValues : Prop :=
  ∀ (c : Config) (h : Hand),
    (State.resetWith c).seq h =
      { position := 0, commutationPhase := c.phaseReset, plannedSteps := 0, coilsEnergized := false,
        lastStepTime := 0, lastDirection := c.lastdirReset, coil := 0b0000 } ∧
    (State.resetWith c).cal h =
      { phase := .findField, stepCount := 0, trackingInField := false, enterPosition := 0,
        enterDirection := .backward, ignoreNextField := false } ∧
    (State.resetWith c).mbx = { pending := false, data := 0b0000 } ∧
    (State.resetWith c).rly =
      { relaying := false, clockLineHigh := false, outData := 0b0000, lastReceiveTime := 0, lastSendTime := 0,
        inClkPrev := false } ∧
    (State.resetWith c).outPins = 0b00000

/-- 70 R215: under `rst` every state element takes its reset value, whatever arrives; nothing that arrives is
accepted. That `rst` is a level of an event, that no response stands after it and that the later events stay are the
model's reading (log 9, DEDUCED, with logs 3 and 5). -/
def Obligations.RstTakesTheNodeToReset : Prop :=
  ∀ (s : State) (e : Event) (rest : List Event), s.events = e :: rest → e.rst = true →
    ∃ t, step s = .next t ∧ t.cfg = s.cfg ∧ t.seqH = (State.resetWith s.cfg).seqH ∧
      t.seqM = (State.resetWith s.cfg).seqM ∧ t.calH = (State.resetWith s.cfg).calH ∧
      t.calM = (State.resetWith s.cfg).calM ∧ t.mbx = (State.resetWith s.cfg).mbx ∧
      t.rly = (State.resetWith s.cfg).rly ∧ t.resp = none ∧ t.events = rest

/-- The invariant holds right after reset, for every legal configuration and for the one `State.reset` is built with.
The configuration's free values are the model's (logs 1, 2); the statement holds for every value of them. -/
def Obligations.ResetMeetsTheInvariant : Prop :=
  (∀ c : Config, c.Ok → (State.resetWith c).Inv) ∧ State.reset.Inv

/-- 10 R31: every step from any state of the invariant, over any schedule of events, gives a state of the invariant. -/
def Obligations.EveryStepKeepsTheInvariant : Prop :=
  ∀ s t : State, s.Inv → step s = .next t → t.Inv

/-- A step runs the decoded instruction: when the next event is a command word that decodes, or a pin sample, the step
is `exec` of it on the state with that event begun. That the events stand in a field, and that `now` is read modulo
`2^W_TIME`, are the model's reading (logs 3 and 4). -/
def Obligations.StepRunsTheDecodedInstruction : Prop :=
  ∀ (s : State) (inp : Inputs) (a : Arrival) (rest : List Event) (i : Instr),
    s.events = { rst := false, inputs := inp, arrival := a } :: rest →
    decode s.rly.inClkPrev a.packet = .ok i →
    step s = exec i { s with
      inp := { inp with now := inp.now % 2 ^ s.cfg.wTime }, resp := none, events := rest }

/-- 30 R88, R89 and 60 R191, R192: a command word that decodes to nothing is refused with its code, writes nothing,
and the block goes on. That the word is the head of a schedule and `now` is read modulo `2^W_TIME` are the model's
reading (logs 3 and 4). -/
def Obligations.UndecodableWordsAreRefused : Prop :=
  ∀ (s : State) (inp : Inputs) (w : CommandWord) (rest : List Event),
    s.events = { rst := false, inputs := inp, arrival := .command w } :: rest →
    (w.toNat / 2 ^ 28 = 0xF → step s = .next ({ s with
      inp := { inp with now := inp.now % 2 ^ s.cfg.wTime }, events := rest }.respond .illegalOp 0)) ∧
    (w.toNat / 2 ^ 28 ≠ 0xF → (∀ row ∈ commandRows, w &&& row.2 ≠ row.1) → step s = .next ({ s with
      inp := { inp with now := inp.now % 2 ^ s.cfg.wTime }, events := rest }.respond .reservedBits 0))

/-- 60 R192: every command answers; a refused command answers value 0 and leaves everything else as it was. -/
def Obligations.RefusedCommandsWriteNothing : Prop :=
  ∀ (i : Instr) (s : State), i.isCommand = true →
    ∃ (t : State) (r : Response), exec i s = .next t ∧ t.resp = some r ∧
      (r.status ≠ .ok → r.value = 0 ∧ t = { s with resp := some r })

/-- 60 R190: no operation traps or aborts: every step of every state gives a next state. -/
def Obligations.EveryStepGivesANextState : Prop :=
  ∀ s : State, ∃ t, step s = .next t

/-- 10 R23, 60 R205: an operation of one hand leaves the other hand, the mailbox, the relay, the inputs and the schedule
unchanged, and its effect on its own hand and its response depend on that hand's registers, the inputs and the
parameters only. -/
def Obligations.HandsAreIndependent : Prop :=
  ∀ (i : Instr) (h : Hand) (s t : State), Instr.hand? i = some h → exec i s = .next t →
    (t.cfg = s.cfg ∧ t.seq h.other = s.seq h.other ∧ t.cal h.other = s.cal h.other ∧ t.mbx = s.mbx ∧
      t.rly = s.rly ∧ t.inp = s.inp ∧ t.events = s.events) ∧
    (∀ s' t' : State, s'.cfg = s.cfg → s'.seq h = s.seq h → s'.cal h = s.cal h → s'.inp = s.inp →
      exec i s' = .next t' → t'.seq h = t.seq h ∧ t'.cal h = t.cal h ∧ t'.resp = t.resp)

/-- 20 R70, its derived sentence: a command that touches no state shared with the edge handler commutes with a sample:
the sample before or after the command gives the same state. -/
def Obligations.SamplesCommuteWithUnsharedCommands : Prop :=
  ∀ (i j : Instr) (s t u t' u' : State),
    i.isCommand = true → i ≠ .tickp → i ≠ .ticki → i ≠ .drain → j.isSample = true →
    exec i s = .next t → exec j t = .next u → exec j s = .next t' → exec i t' = .next u' → u = u'

/-- 30 R85: a response fits its fields: the value is below `2^13`, and the 16-bit word is the status code above it. -/
def Obligations.ResponsesFitTheirFields : Prop :=
  ∀ (i : Instr) (s t : State), s.Inv → i.isCommand = true → exec i s = .next t →
    ∃ r : Response, t.resp = some r ∧ r.value < 2 ^ 13 ∧
      r.word.toNat / 2 ^ 13 = r.status.code ∧ r.word.toNat % 2 ^ 13 = r.value

/-- 60 R209, with the spec's own inference from R131: a sample of node `k + 1` of a chain reads the outbound pins of
node `k` as they stand: it takes an edge, with node `k`'s outbound word, exactly when node `k`'s outbound clock is
high and node `k + 1` sampled it low before. No other node changes. -/
def Obligations.ChainSamplesReadTheNodeBefore : Prop :=
  ∀ (nodes : List State) (k : Nat) (up n : State) (inp : Inputs) (v : PinSample),
    nodes[k]? = some up → nodes[k + 1]? = some n →
    ∃ t, chainStep nodes (k + 1) { rst := false, inputs := inp, arrival := .sample v } = .next (nodes.set (k + 1) t) ∧
      t.rly.inClkPrev = up.rly.clockLineHigh ∧
      ((up.rly.clockLineHigh = true ∧ n.rly.inClkPrev = false) →
        (n.rly.relaying = false → t.mbx = { pending := true, data := up.rly.outData }) ∧
        (n.rly.relaying = true → t.mbx = n.mbx ∧ t.rly.outData = up.rly.outData ∧ t.rly.clockLineHigh = true)) ∧
      (¬ (up.rly.clockLineHigh = true ∧ n.rly.inClkPrev = false) →
        t.mbx = n.mbx ∧ t.rly = { n.rly with inClkPrev := up.rly.clockLineHigh })

/-! ### Encodings -/

/-- Decoding the encoding of a well-formed instruction gives the instruction back, for every instruction and every
operand its encoding admits; a pin sample under the clock level before it that selects its row. -/
def Obligations.DecodeInvertsEncode : Prop :=
  ∀ (prev : Bool) (i : Instr), i.wellFormed = true → Instr.selectedAt prev i = true →
    decode prev (encode i) = .ok i

/-- No two packets mean the same instruction: what decodes was encoded so, and is well-formed. -/
def Obligations.EncodeInvertsDecode : Prop :=
  ∀ (prev : Bool) (p : Packet) (i : Instr), decode prev p = .ok i →
    encode i = p ∧ i.wellFormed = true ∧ Instr.selectedAt prev i = true

/-- 30 R88: a command word decodes exactly when it matches a row of the `match`/`mask` table. -/
def Obligations.DecoderMatchesTheOpcodeTable : Prop :=
  ∀ w : CommandWord, (∃ i, decodeCommand w = .ok i) ↔ ∃ row ∈ commandRows, w &&& row.2 = row.1

/-- 30 R92, R82 and 95, 2.2: words of the spec decode to the instructions they stand for. -/
def Obligations.WordsOfTheSpecDecode : Prop :=
  decodeCommand 0x0401E014 = .ok (.diff 20 30 .forward) ∧
  decodeCommand 0x9000200A = .ok (.recal .hour 10 2 .backward) ∧
  decodeCommand 0x4C000000 = .ok (.plan .minute .forward) ∧
  decodeCommand 0xD8000000 = .ok (.cadv .minute) ∧
  decodeCommand 0xB0000000 = .ok .drain ∧
  decodeCommand 0xF1234567 = .error .illegalOp ∧
  decodeCommand 0x31000000 = .error .reservedBits ∧
  decodeBusWord 0b0110 = .bmovHfMb ∧
  decodeBusWord 0b0011 = .bhome0011 ∧
  decodeSample false 0b10010 = .sampleEdge 0b0010 ∧
  decodeSample true 0b10110 = .sampleNoEdge true 0b0110
end

