-- ==== Sys2Proof/Laws/State.lean ====
section
/-! SUPPORT. One lemma for each field of the state under each update of it, so that no proof unfolds a record update. -/

namespace Sys2Proof.Machine

variable (s t : State) (h : Hand) (m : Sequencer) (k : Calibration)

@[simp] theorem State.withSeq_cfg : (s.withSeq h m).cfg = s.cfg := by cases h <;> rfl
@[simp] theorem State.withSeq_mbx : (s.withSeq h m).mbx = s.mbx := by cases h <;> rfl
@[simp] theorem State.withSeq_rly : (s.withSeq h m).rly = s.rly := by cases h <;> rfl
@[simp] theorem State.withSeq_inp : (s.withSeq h m).inp = s.inp := by cases h <;> rfl
@[simp] theorem State.withSeq_resp : (s.withSeq h m).resp = s.resp := by cases h <;> rfl
@[simp] theorem State.withSeq_events : (s.withSeq h m).events = s.events := by cases h <;> rfl
@[simp] theorem State.withCal_cfg : (s.withCal h k).cfg = s.cfg := by cases h <;> rfl
@[simp] theorem State.withCal_mbx : (s.withCal h k).mbx = s.mbx := by cases h <;> rfl
@[simp] theorem State.withCal_rly : (s.withCal h k).rly = s.rly := by cases h <;> rfl
@[simp] theorem State.withCal_inp : (s.withCal h k).inp = s.inp := by cases h <;> rfl
@[simp] theorem State.withCal_resp : (s.withCal h k).resp = s.resp := by cases h <;> rfl
@[simp] theorem State.withCal_events : (s.withCal h k).events = s.events := by cases h <;> rfl
@[simp] theorem State.withSeq_seq : (s.withSeq h m).seq h = m := by cases h <;> rfl
@[simp] theorem State.withSeq_seq_other : (s.withSeq h m).seq h.other = s.seq h.other := by cases h <;> rfl
@[simp] theorem State.withSeq_cal (j : Hand) : (s.withSeq h m).cal j = s.cal j := by cases h <;> cases j <;> rfl
@[simp] theorem State.withCal_cal : (s.withCal h k).cal h = k := by cases h <;> rfl
@[simp] theorem State.withCal_cal_other : (s.withCal h k).cal h.other = s.cal h.other := by cases h <;> rfl
@[simp] theorem State.withCal_seq (j : Hand) : (s.withCal h k).seq j = s.seq j := by cases h <;> cases j <;> rfl
@[simp] theorem State.withSeq_self : s.withSeq h (s.seq h) = s := by cases h <;> rfl
@[simp] theorem State.withCal_self : s.withCal h (s.cal h) = s := by cases h <;> rfl
@[simp] theorem State.withSeq_withSeq (m' : Sequencer) : (s.withSeq h m).withSeq h m' = s.withSeq h m' := by cases h <;> rfl
@[simp] theorem State.withSeq_seqH : (s.withSeq .hour m).seqH = m := rfl
@[simp] theorem State.withSeq_seqM : (s.withSeq .minute m).seqM = m := rfl
@[simp] theorem State.withSeq_hour_seqM : (s.withSeq .hour m).seqM = s.seqM := rfl
@[simp] theorem State.withSeq_minute_seqH : (s.withSeq .minute m).seqH = s.seqH := rfl
@[simp] theorem State.withSeq_calH : (s.withSeq h m).calH = s.calH := by cases h <;> rfl
@[simp] theorem State.withSeq_calM : (s.withSeq h m).calM = s.calM := by cases h <;> rfl
@[simp] theorem State.withCal_seqH : (s.withCal h k).seqH = s.seqH := by cases h <;> rfl
@[simp] theorem State.withCal_seqM : (s.withCal h k).seqM = s.seqM := by cases h <;> rfl
@[simp] theorem State.withCal_calH : (s.withCal .hour k).calH = k := rfl
@[simp] theorem State.withCal_calM : (s.withCal .minute k).calM = k := rfl
@[simp] theorem State.withCal_hour_calM : (s.withCal .hour k).calM = s.calM := rfl
@[simp] theorem State.withCal_minute_calH : (s.withCal .minute k).calH = s.calH := rfl
@[simp] theorem State.respond_cfg (st : Status) (v : Nat) : (s.respond st v).cfg = s.cfg := rfl
@[simp] theorem State.respond_seqH (st : Status) (v : Nat) : (s.respond st v).seqH = s.seqH := rfl
@[simp] theorem State.respond_seqM (st : Status) (v : Nat) : (s.respond st v).seqM = s.seqM := rfl
@[simp] theorem State.respond_calH (st : Status) (v : Nat) : (s.respond st v).calH = s.calH := rfl
@[simp] theorem State.respond_calM (st : Status) (v : Nat) : (s.respond st v).calM = s.calM := rfl
@[simp] theorem State.respond_mbx (st : Status) (v : Nat) : (s.respond st v).mbx = s.mbx := rfl
@[simp] theorem State.respond_rly (st : Status) (v : Nat) : (s.respond st v).rly = s.rly := rfl
@[simp] theorem State.respond_inp (st : Status) (v : Nat) : (s.respond st v).inp = s.inp := rfl
@[simp] theorem State.respond_events (st : Status) (v : Nat) : (s.respond st v).events = s.events := rfl
@[simp] theorem State.respond_resp (st : Status) (v : Nat) : (s.respond st v).resp = some { status := st, value := v } := rfl
@[simp] theorem State.respond_seq (st : Status) (v : Nat) : (s.respond st v).seq h = s.seq h := by cases h <;> rfl
@[simp] theorem State.respond_cal (st : Status) (v : Nat) : (s.respond st v).cal h = s.cal h := by cases h <;> rfl
@[simp] theorem State.refuse_eq (st : Status) : s.refuse st = s.respond st 0 := rfl
@[simp] theorem State.seq_hour : s.seq .hour = s.seqH := rfl
@[simp] theorem State.seq_minute : s.seq .minute = s.seqM := rfl
@[simp] theorem State.cal_hour : s.cal .hour = s.calH := rfl
@[simp] theorem State.cal_minute : s.cal .minute = s.calM := rfl
@[simp] theorem State.beginEvent_cfg (e : Event) (r : List Event) : (s.beginEvent e r).cfg = s.cfg := rfl
@[simp] theorem State.beginEvent_seqH (e : Event) (r : List Event) : (s.beginEvent e r).seqH = s.seqH := rfl
@[simp] theorem State.beginEvent_seqM (e : Event) (r : List Event) : (s.beginEvent e r).seqM = s.seqM := rfl
@[simp] theorem State.beginEvent_calH (e : Event) (r : List Event) : (s.beginEvent e r).calH = s.calH := rfl
@[simp] theorem State.beginEvent_calM (e : Event) (r : List Event) : (s.beginEvent e r).calM = s.calM := rfl
@[simp] theorem State.beginEvent_mbx (e : Event) (r : List Event) : (s.beginEvent e r).mbx = s.mbx := rfl
@[simp] theorem State.beginEvent_rly (e : Event) (r : List Event) : (s.beginEvent e r).rly = s.rly := rfl
@[simp] theorem State.beginEvent_inp (e : Event) (r : List Event) : (s.beginEvent e r).inp = e.inputs.read s.cfg := rfl
@[simp] theorem State.beginEvent_resp (e : Event) (r : List Event) : (s.beginEvent e r).resp = none := rfl
@[simp] theorem State.beginEvent_events (e : Event) (r : List Event) : (s.beginEvent e r).events = r := rfl
@[simp] theorem State.beginEvent_seq (e : Event) (r : List Event) : (s.beginEvent e r).seq h = s.seq h := by cases h <;> rfl
@[simp] theorem State.beginEvent_cal (e : Event) (r : List Event) : (s.beginEvent e r).cal h = s.cal h := by cases h <;> rfl
@[simp] theorem State.resetNode_cfg : s.resetNode.cfg = s.cfg := rfl
@[simp] theorem State.resetNode_events : s.resetNode.events = s.events := rfl
@[simp] theorem State.resetNode_inp : s.resetNode.inp = s.inp := rfl
@[simp] theorem State.seeClk_cfg (c : Bool) : (s.seeClk c).cfg = s.cfg := rfl
@[simp] theorem State.seeClk_seqH (c : Bool) : (s.seeClk c).seqH = s.seqH := rfl
@[simp] theorem State.seeClk_seqM (c : Bool) : (s.seeClk c).seqM = s.seqM := rfl
@[simp] theorem State.seeClk_calH (c : Bool) : (s.seeClk c).calH = s.calH := rfl
@[simp] theorem State.seeClk_calM (c : Bool) : (s.seeClk c).calM = s.calM := rfl
@[simp] theorem State.seeClk_mbx (c : Bool) : (s.seeClk c).mbx = s.mbx := rfl
@[simp] theorem State.seeClk_inp (c : Bool) : (s.seeClk c).inp = s.inp := rfl
@[simp] theorem State.seeClk_resp (c : Bool) : (s.seeClk c).resp = s.resp := rfl
@[simp] theorem State.seeClk_events (c : Bool) : (s.seeClk c).events = s.events := rfl
@[simp] theorem State.seeClk_rly (c : Bool) : (s.seeClk c).rly = { s.rly with inClkPrev := c } := rfl
@[simp] theorem State.seeClk_seq (c : Bool) : (s.seeClk c).seq h = s.seq h := by cases h <;> rfl
@[simp] theorem State.seeClk_cal (c : Bool) : (s.seeClk c).cal h = s.cal h := by cases h <;> rfl
@[simp] theorem State.emptyMailbox_cfg : s.emptyMailbox.cfg = s.cfg := rfl
@[simp] theorem State.emptyMailbox_seqH : s.emptyMailbox.seqH = s.seqH := rfl
@[simp] theorem State.emptyMailbox_seqM : s.emptyMailbox.seqM = s.seqM := rfl
@[simp] theorem State.emptyMailbox_calH : s.emptyMailbox.calH = s.calH := rfl
@[simp] theorem State.emptyMailbox_calM : s.emptyMailbox.calM = s.calM := rfl
@[simp] theorem State.emptyMailbox_rly : s.emptyMailbox.rly = s.rly := rfl
@[simp] theorem State.emptyMailbox_inp : s.emptyMailbox.inp = s.inp := rfl
@[simp] theorem State.emptyMailbox_resp : s.emptyMailbox.resp = s.resp := rfl
@[simp] theorem State.emptyMailbox_events : s.emptyMailbox.events = s.events := rfl
@[simp] theorem State.emptyMailbox_mbx : s.emptyMailbox.mbx = { s.mbx with pending := false } := rfl
@[simp] theorem State.emptyMailbox_seq : s.emptyMailbox.seq h = s.seq h := by cases h <;> rfl
@[simp] theorem State.emptyMailbox_cal : s.emptyMailbox.cal h = s.cal h := by cases h <;> rfl
@[simp] theorem State.present_cfg (e : Event) : (s.present e).cfg = s.cfg := rfl
@[simp] theorem State.present_seqH (e : Event) : (s.present e).seqH = s.seqH := rfl
@[simp] theorem State.present_seqM (e : Event) : (s.present e).seqM = s.seqM := rfl
@[simp] theorem State.present_calH (e : Event) : (s.present e).calH = s.calH := rfl
@[simp] theorem State.present_calM (e : Event) : (s.present e).calM = s.calM := rfl
@[simp] theorem State.present_mbx (e : Event) : (s.present e).mbx = s.mbx := rfl
@[simp] theorem State.present_rly (e : Event) : (s.present e).rly = s.rly := rfl
@[simp] theorem State.present_inp (e : Event) : (s.present e).inp = s.inp := rfl
@[simp] theorem State.present_resp (e : Event) : (s.present e).resp = s.resp := rfl
@[simp] theorem State.present_events (e : Event) : (s.present e).events = e :: s.events := rfl
@[simp] theorem Hand.other_other : h.other.other = h := by cases h <;> rfl
@[simp] theorem Sequencer.stepForward_position (c : Config) : (m.stepForward c).position = succPosition c m.position := rfl
@[simp] theorem Sequencer.stepForward_commutationPhase (c : Config) : (m.stepForward c).commutationPhase = nextPhase c m.commutationPhase := rfl
@[simp] theorem Sequencer.stepForward_plannedSteps (c : Config) : (m.stepForward c).plannedSteps = m.plannedSteps := rfl
@[simp] theorem Sequencer.stepForward_coilsEnergized (c : Config) : (m.stepForward c).coilsEnergized = true := rfl
@[simp] theorem Sequencer.stepForward_lastStepTime (c : Config) : (m.stepForward c).lastStepTime = m.lastStepTime := rfl
@[simp] theorem Sequencer.stepForward_lastDirection (c : Config) : (m.stepForward c).lastDirection = .forward := rfl
@[simp] theorem Sequencer.stepForward_coil (c : Config) : (m.stepForward c).coil = coilPattern c (nextPhase c m.commutationPhase) := rfl
@[simp] theorem Sequencer.stepBackward_position (c : Config) : (m.stepBackward c).position = predPosition c m.position := rfl
@[simp] theorem Sequencer.stepBackward_commutationPhase (c : Config) : (m.stepBackward c).commutationPhase = prevPhase c m.commutationPhase := rfl
@[simp] theorem Sequencer.stepBackward_plannedSteps (c : Config) : (m.stepBackward c).plannedSteps = m.plannedSteps := rfl
@[simp] theorem Sequencer.stepBackward_coilsEnergized (c : Config) : (m.stepBackward c).coilsEnergized = true := rfl
@[simp] theorem Sequencer.stepBackward_lastStepTime (c : Config) : (m.stepBackward c).lastStepTime = m.lastStepTime := rfl
@[simp] theorem Sequencer.stepBackward_lastDirection (c : Config) : (m.stepBackward c).lastDirection = .backward := rfl
@[simp] theorem Sequencer.stepBackward_coil (c : Config) : (m.stepBackward c).coil = coilPattern c (prevPhase c m.commutationPhase) := rfl
@[simp] theorem Sequencer.deenergize_position : m.deenergize.position = m.position := rfl
@[simp] theorem Sequencer.deenergize_commutationPhase : m.deenergize.commutationPhase = m.commutationPhase := rfl
@[simp] theorem Sequencer.deenergize_plannedSteps : m.deenergize.plannedSteps = m.plannedSteps := rfl
@[simp] theorem Sequencer.deenergize_coilsEnergized : m.deenergize.coilsEnergized = false := rfl
@[simp] theorem Sequencer.deenergize_lastStepTime : m.deenergize.lastStepTime = m.lastStepTime := rfl
@[simp] theorem Sequencer.deenergize_lastDirection : m.deenergize.lastDirection = m.lastDirection := rfl
@[simp] theorem Sequencer.deenergize_coil : m.deenergize.coil = 0b0000 := rfl
@[simp] theorem Sequencer.resetOrigin_position : m.resetOrigin.position = 0 := rfl
@[simp] theorem Sequencer.resetOrigin_commutationPhase : m.resetOrigin.commutationPhase = m.commutationPhase := rfl
@[simp] theorem Sequencer.resetOrigin_plannedSteps : m.resetOrigin.plannedSteps = 0 := rfl
@[simp] theorem Sequencer.resetOrigin_coilsEnergized : m.resetOrigin.coilsEnergized = false := rfl
@[simp] theorem Sequencer.resetOrigin_lastStepTime : m.resetOrigin.lastStepTime = 0 := rfl
@[simp] theorem Sequencer.resetOrigin_lastDirection : m.resetOrigin.lastDirection = m.lastDirection := rfl
@[simp] theorem Sequencer.resetOrigin_coil : m.resetOrigin.coil = 0b0000 := rfl
@[simp] theorem Calibration.start_phase : k.start.phase = .findField := rfl
@[simp] theorem Calibration.start_stepCount : k.start.stepCount = 0 := rfl
@[simp] theorem Calibration.start_trackingInField : k.start.trackingInField = k.trackingInField := rfl
@[simp] theorem Calibration.start_enterPosition : k.start.enterPosition = k.enterPosition := rfl
@[simp] theorem Calibration.start_enterDirection : k.start.enterDirection = k.enterDirection := rfl
@[simp] theorem Calibration.start_ignoreNextField : k.start.ignoreNextField = k.ignoreNextField := rfl

end Sys2Proof.Machine
end

