-- ==== Sys2Proof/Laws/Ops.lean ====
section
/-! SUPPORT. What each shared operation can do, said once: if it gives a result, then one of these cases holds. The
provers cite these instead of unfolding the operations. -/

namespace Sys2Proof.Machine

/-! ### Answers -/

/-- A command ends in a next state: its effect with `OK`, or its refusal. -/
theorem State.answer_eq_next {s t : State} {v : Nat} {r : Except Status State} :
    s.answer v r = .next t ↔
      (∃ u, r = .ok u ∧ t = u.respond .ok v) ∨ (∃ e, r = .error e ∧ t = s.respond e 0) := by
  cases r <;> simp [State.answer, eq_comm]

/-- The end of a dispatch is a next state: its effect, or the refusal. -/
theorem State.settle_eq_next {s t : State} {r : Except Status State} :
    s.settle r = .next t ↔ r = .ok t ∨ (∃ e, r = .error e ∧ t = s.respond e 0) := by
  cases r <;> simp [State.settle, eq_comm]

@[simp] theorem State.answer_ok (s t : State) (v : Nat) : s.answer v (.ok t) = .next (t.respond .ok v) := rfl
@[simp] theorem State.answer_error (s : State) (v : Nat) (e : Status) :
    s.answer v (.error e) = .next (s.respond e 0) := rfl
@[simp] theorem State.settle_ok (s t : State) : s.settle (.ok t) = .next t := rfl
@[simp] theorem State.settle_error (s : State) (e : Status) : s.settle (.error e) = .next (s.respond e 0) := rfl

/-! ### Ranges -/

theorem planMin_le_zero (c : Config) : planMin c ≤ 0 := by
  simp [planMin]

theorem planMax_nonneg (c : Config) : 0 ≤ planMax c := by
  have : 0 < 2 ^ (c.wPlan - 1) := Nat.two_pow_pos _
  simp only [planMax]
  omega

theorem planMax_eq (c : Config) : planMax c = 2 ^ (c.wPlan - 1) - 1 := by
  simp [planMax]

theorem planMin_eq (c : Config) : planMin c = -2 ^ (c.wPlan - 1) := by
  simp [planMin]

theorem elapsed_lt (c : Config) (now last : Nat) : elapsed c now last < 2 ^ c.wTime := by
  have hpos : (0 : Int) < ((2 ^ c.wTime : Nat) : Int) := by exact_mod_cast Nat.two_pow_pos c.wTime
  have h1 := Int.emod_lt_of_pos ((now : Int) - last) hpos
  have h2 := Int.emod_nonneg ((now : Int) - last) hpos.ne'
  unfold elapsed
  omega

/-! ### The sequencer -/

/-- `planned_steps` changes by exactly `k`, inside its range, and nothing else changes; or the change is refused. -/
theorem Sequencer.addSteps_ok {c : Config} {k : Int} {m m' : Sequencer} :
    m.addSteps c k = .ok m' ↔
      planMin c ≤ m.plannedSteps + k ∧ m.plannedSteps + k ≤ planMax c ∧
        m' = { m with plannedSteps := m.plannedSteps + k } := by
  unfold Sequencer.addSteps
  split_ifs with hr
  · simp
    omega
  · simp only [Except.ok.injEq]
    constructor
    · rintro rfl
      exact ⟨by omega, by omega, rfl⟩
    · rintro ⟨_, _, rfl⟩
      rfl

theorem Sequencer.addSteps_error {c : Config} {k : Int} {m : Sequencer} {e : Status} :
    m.addSteps c k = .error e ↔
      (m.plannedSteps + k > planMax c ∨ m.plannedSteps + k < planMin c) ∧ e = .planOverflow := by
  unfold Sequencer.addSteps
  split_ifs with hr
  · simp [hr, eq_comm]
  · simp [hr]

/-- `RECAL` that is performed: operands in range, steps owed changed by `±off`, the position rewritten. -/
theorem Sequencer.recalibrate_ok {c : Config} {target off : Nat} {d : Direction} {m m' : Sequencer}
    (hr : m.recalibrate c target off d = .ok m') :
    target < c.stepsPerRev ∧ off < c.stepsPerRev ∧
      planMin c ≤ m.plannedSteps + signedSteps d off ∧ m.plannedSteps + signedSteps d off ≤ planMax c ∧
      m' = { m with
        plannedSteps := m.plannedSteps + signedSteps d off, position := recalPosition c target off d } := by
  unfold Sequencer.recalibrate at hr
  split at hr
  case isFalse => cases hr
  case isTrue hin =>
    simp only [inRing, Bool.and_eq_true, decide_eq_true_eq] at hin
    split at hr
    case h_2 => cases hr
    case h_1 m1 h1 =>
      obtain ⟨ha, hb, rfl⟩ := Sequencer.addSteps_ok.mp h1
      cases hr
      exact ⟨hin.1, hin.2, ha, hb, rfl⟩

/-- What a `TRY` can do: nothing, de-energize, or one step in the sign of the steps owed. -/
theorem Sequencer.tryStep_cases (c : Config) (now : Nat) (m : Sequencer) :
    (m.tryStep c now = (m, false)) ∨
    (m.plannedSteps = 0 ∧ elapsed c now m.lastStepTime > c.standstillTimeout ∧
      m.tryStep c now = (m.deenergize, false)) ∨
    (m.plannedSteps > 0 ∧ c.minStepInterval ≤ elapsed c now m.lastStepTime ∧
      m.tryStep c now =
        ({ m.stepForward c with plannedSteps := m.plannedSteps - 1, lastStepTime := now }, true)) ∨
    (m.plannedSteps < 0 ∧ c.minStepInterval ≤ elapsed c now m.lastStepTime ∧
      m.tryStep c now =
        ({ m.stepBackward c with plannedSteps := m.plannedSteps + 1, lastStepTime := now }, true)) := by
  unfold Sequencer.tryStep
  split_ifs with h1 h2 h3 h4 h5
  · exact .inl rfl
  · exact .inr (.inl ⟨h2.1, h2.2, rfl⟩)
  · exact .inl rfl
  · exact .inr (.inr (.inl ⟨h4, by omega, rfl⟩))
  · exact .inr (.inr (.inr ⟨h5, by omega, rfl⟩))
  · exact .inl rfl

/-! ### Calibration -/

/-- What one call of the homing step can do to a hand, besides being refused with `CountOverflow`: nothing, a change of
phase without a step, one counted step, or the origin reset that ends the run. -/
theorem cadvRow_cases {g : Config} {inField : Bool} {c : Calibration} {m : Sequencer} {p : Calibration × Sequencer}
    (hr : cadvRow g inField c m = .ok p) :
    (c.phase = .calibrated ∧ p = (c, m)) ∨
    (c.phase = .leaveField ∧ c.stepCount = 0 ∧ p = ({ c with phase := .findField }, m)) ∨
    (c.phase = .findField ∧ c.stepCount ≤ g.minStepsOutsideField ∧
      p = ({ c with stepCount := g.minStepsOutsideField + 1, phase := .leaveField }, m)) ∨
    (c.phase = .findField ∧ p = ({ c with stepCount := 0, phase := .inField }, m)) ∨
    (c.phase = .inField ∧ p = ({ c with stepCount := c.stepCount / 2, phase := .centering }, m)) ∨
    (c.phase = .centering ∧ c.stepCount = 0 ∧
      p = ({ c with ignoreNextField := true, phase := .calibrated }, m.resetOrigin)) ∨
    ((c.phase = .findField ∨ c.phase = .inField) ∧ c.stepCount ≠ countMax g ∧
      p = ({ c with stepCount := c.stepCount + 1 }, m.stepForward g)) ∨
    ((c.phase = .leaveField ∨ c.phase = .centering) ∧ c.stepCount ≠ 0 ∧
      p = ({ c with stepCount := c.stepCount - 1 }, m.stepBackward g)) := by
  unfold cadvRow at hr
  cases hph : c.phase <;> simp only [hph] at hr
  · unfold cadvLeaveField at hr
    split_ifs at hr with h0 <;> cases hr <;> simp [h0, hph]
  · unfold cadvFindField cadvCountForward at hr
    split_ifs at hr with h0 h1 h2
    · cases hr
      simp [h0]
    · cases hr
      simp
    · cases hr
      simp [h2, hph]
  · unfold cadvInField cadvCountForward at hr
    split_ifs at hr with h0 h1
    · cases hr
      simp
    · cases hr
      simp [h1, hph]
  · unfold cadvCentering at hr
    split_ifs at hr with h0 <;> cases hr <;> simp [h0, hph]
  · cases hr
    simp

theorem cadvRow_error {g : Config} {inField : Bool} {c : Calibration} {m : Sequencer} {e : Status}
    (hr : cadvRow g inField c m = .error e) :
    e = .countOverflow ∧ c.stepCount = countMax g ∧ (c.phase = .findField ∨ c.phase = .inField) := by
  unfold cadvRow at hr
  cases hph : c.phase <;> simp only [hph] at hr
  · unfold cadvLeaveField at hr
    split_ifs at hr
  · unfold cadvFindField cadvCountForward at hr
    split_ifs at hr with _ _ h2
    cases hr
    simp [h2]
  · unfold cadvInField cadvCountForward at hr
    split_ifs at hr with _ h1
    cases hr
    simp [h1]
  · unfold cadvCentering at hr
    split_ifs at hr
  · cases hr

/-- What a drift check can do to a hand, besides being refused: it leaves phase and count alone, and either leaves the
sequencer alone or performs one `RECAL` and sets `ignore_next_field`. -/
theorem driftCheck_cases {g : Config} {inField : Bool} {c : Calibration} {m : Sequencer} {p : Calibration × Sequencer}
    (hr : driftCheck g inField c m = .ok p) :
    p.1.phase = c.phase ∧ p.1.stepCount = c.stepCount ∧
    (p.1.enterPosition = c.enterPosition ∨ p.1.enterPosition = m.position) ∧
    (p.2 = m ∨ ∃ target off d, m.recalibrate g target off d = .ok p.2 ∧ p.1.ignoreNextField = true) := by
  unfold driftCheck driftLeave driftMeasure at hr
  simp only at hr
  split_ifs at hr
  · cases hr
    simp
  · cases hr
    simp
  · cases hr
    simp
  · cases hr
    simp
  · cases hr
    simp
  · split at hr
    case h_2 => cases hr
    case h_1 m' hm =>
      cases hr
      exact ⟨rfl, rfl, .inl rfl, .inr ⟨_, _, _, hm, rfl⟩⟩
  · cases hr
    simp

/-! ### Bus words -/

/-- `PLAN h, dir` that is performed changes `seq[h].planned_steps` by one. -/
theorem State.plan_ok {s t : State} {h : Hand} {d : Direction} (hp : s.plan h d = .ok t) :
    planMin s.cfg ≤ (s.seq h).plannedSteps + signedSteps d 1 ∧
      (s.seq h).plannedSteps + signedSteps d 1 ≤ planMax s.cfg ∧
      t = s.withSeq h { s.seq h with plannedSteps := (s.seq h).plannedSteps + signedSteps d 1 } := by
  unfold State.plan State.onSeq Sequencer.plan at hp
  split at hp
  case h_2 => cases hp
  case h_1 m hm =>
    obtain ⟨ha, hb, rfl⟩ := Sequencer.addSteps_ok.mp hm
    cases hp
    exact ⟨ha, hb, rfl⟩

theorem State.plan_error {s : State} {h : Hand} {d : Direction} {e : Status} (hp : s.plan h d = .error e) :
    e = .planOverflow ∧
      ((s.seq h).plannedSteps + signedSteps d 1 > planMax s.cfg ∨
        (s.seq h).plannedSteps + signedSteps d 1 < planMin s.cfg) := by
  unfold State.plan State.onSeq Sequencer.plan at hp
  split at hp
  case h_1 => cases hp
  case h_2 e' he =>
    obtain ⟨ha, rfl⟩ := Sequencer.addSteps_error.mp he
    cases hp
    exact ⟨rfl, ha⟩

/-- A state change that touches nothing but the steps owed of the two hands, each within its range. -/
def PlansOnly (s t : State) : Prop :=
  ∃ pH pM : Int,
    (pH = s.seqH.plannedSteps ∨ (planMin s.cfg ≤ pH ∧ pH ≤ planMax s.cfg)) ∧
    (pM = s.seqM.plannedSteps ∨ (planMin s.cfg ≤ pM ∧ pM ≤ planMax s.cfg)) ∧
    t = { s with seqH := { s.seqH with plannedSteps := pH }, seqM := { s.seqM with plannedSteps := pM } }

theorem PlansOnly.refl (s : State) : PlansOnly s s :=
  ⟨_, _, .inl rfl, .inl rfl, rfl⟩

theorem PlansOnly.trans {s t u : State} (h1 : PlansOnly s t) (h2 : PlansOnly t u) : PlansOnly s u := by
  obtain ⟨a, b, ha, hb, rfl⟩ := h1
  obtain ⟨a', b', ha', hb', rfl⟩ := h2
  refine ⟨a', b', ?_, ?_, rfl⟩
  · rcases ha' with rfl | h'
    · exact ha
    · exact .inr h'
  · rcases hb' with rfl | h'
    · exact hb
    · exact .inr h'

theorem State.plan_plansOnly {s t : State} {h : Hand} {d : Direction} (hp : s.plan h d = .ok t) : PlansOnly s t := by
  obtain ⟨ha, hb, rfl⟩ := State.plan_ok hp
  cases h
  · exact ⟨_, _, .inr ⟨ha, hb⟩, .inl rfl, rfl⟩
  · exact ⟨_, _, .inl rfl, .inr ⟨ha, hb⟩, rfl⟩

theorem planIf_plansOnly {s t : State} {flag : Bool} {h : Hand} {d : Direction} {r : Except Status State}
    (hr : ∀ u, r = .ok u → PlansOnly s u) (hp : planIf flag h d r = .ok t) : PlansOnly s t := by
  unfold planIf at hp
  split at hp
  case h_2 => cases hp
  case h_1 u =>
    split_ifs at hp
    · exact (hr u rfl).trans (State.plan_plansOnly hp)
    · cases hp
      exact hr _ rfl

theorem State.planBoth_plansOnly {s t : State} {dh dm : Direction} (hp : s.planBoth dh dm = .ok t) :
    PlansOnly s t := by
  unfold State.planBoth at hp
  split at hp
  case h_2 => cases hp
  case h_1 u hu => exact (State.plan_plansOnly hu).trans (State.plan_plansOnly hp)

/-- What a dispatch that is performed can do: restart the homing of both hands for a trigger word, else change steps owed
and nothing else. -/
theorem dispatch_ok {w : BusWord} {s t : State} (hd : dispatch w s = .ok t) :
    (trig w = true ∧ t = s.restartHoming) ∨ (trig w = false ∧ PlansOnly s t) := by
  unfold dispatch at hd
  split_ifs at hd with ht
  · cases hd
    exact .inl ⟨ht, rfl⟩
  · refine .inr ⟨by simpa using ht, ?_⟩
    refine planIf_plansOnly (fun u hu => ?_) hd
    refine planIf_plansOnly (fun u hu => ?_) hu
    refine planIf_plansOnly (fun u hu => ?_) hu
    refine planIf_plansOnly (fun u hu => ?_) hu
    cases hu
    exact PlansOnly.refl _

/-- The homing of both hands restarted: phase and count of both controllers, nothing else. -/
theorem State.restartHoming_eq (s : State) :
    s.restartHoming = { s with
      calH := { s.calH with stepCount := 0, phase := .findField }
      calM := { s.calM with stepCount := 0, phase := .findField } } := rfl

/-! ### The relay -/

/-- What the edge handler can do: forward while relaying, else latch. -/
theorem State.edge_cases (s : State) (w : BusWord) :
    (s.rly.relaying = true ∧ s.edge w = { s with rly := { s.rly with
      outData := w, clockLineHigh := true, lastSendTime := s.inp.now, lastReceiveTime := s.inp.now } }) ∨
    (s.rly.relaying = false ∧ s.edge w = { s with
      mbx := { data := w, pending := true }
      rly := { s.rly with relaying := true, lastReceiveTime := s.inp.now } }) := by
  unfold State.edge
  cases s.rly.relaying <;> simp

/-- What `TICKP` can do: nothing, or drop a pulse that has lasted long enough. -/
theorem State.tickp_cases (s : State) :
    s.tickp = s ∨
    (s.rly.clockLineHigh = true ∧ s.cfg.minPulseWidth < elapsed s.cfg s.inp.now s.rly.lastSendTime ∧
      s.tickp = { s with rly := { s.rly with clockLineHigh := false } }) := by
  unfold State.tickp
  split_ifs with hc
  · exact .inr ⟨hc.1, hc.2, rfl⟩
  · exact .inl rfl

/-- What `TICKI` can do: nothing, or release the relay after the idle timeout. -/
theorem State.ticki_cases (s : State) :
    s.ticki = s ∨
    (s.rly.relaying = true ∧
      s.cfg.interInstructionTimeout < elapsed s.cfg s.inp.now s.rly.lastReceiveTime ∧
      s.ticki = { s with rly := { s.rly with relaying := false, outData := 0b0000 } }) := by
  unfold State.ticki
  split_ifs with hc
  · exact .inr ⟨hc.1, hc.2, rfl⟩
  · exact .inl rfl

/-- What a drain that is performed can do: nothing with an empty mailbox, else the dispatch of its word and the mailbox
emptied. -/
theorem State.drain_ok {s t : State} (hd : s.drain = .ok t) :
    (s.mbx.pending = false ∧ t = s) ∨
    (s.mbx.pending = true ∧ ∃ u, dispatch s.mbx.data s = .ok u ∧ t = u.emptyMailbox) := by
  unfold State.drain at hd
  cases hp : s.mbx.pending <;> simp only [hp, Bool.false_eq_true, if_true, if_false] at hd
  · cases hd
    exact .inl ⟨rfl, rfl⟩
  · split at hd
    case h_2 => cases hd
    case h_1 u hu =>
      cases hd
      exact .inr ⟨rfl, u, hu, rfl⟩

/-! ### One event -/

/-- What a step can do: nothing without an event; the reset values under `rst`; the decoded instruction; or the refusal
of a word that does not decode. -/
theorem step_cases (s : State) :
    (s.events = [] ∧ step s = .next s) ∨
    ∃ e rest, s.events = e :: rest ∧
      ((e.rst = true ∧ step s = .next (s.beginEvent e rest).resetNode) ∨
       (e.rst = false ∧ ∃ i, decode s.rly.inClkPrev e.arrival.packet = .ok i ∧ step s = exec i (s.beginEvent e rest)) ∨
       (e.rst = false ∧ ∃ r, decode s.rly.inClkPrev e.arrival.packet = .error r ∧
         step s = .next ((s.beginEvent e rest).respond (statusOf r) 0))) := by
  unfold step
  cases hev : s.events with
  | nil => exact .inl ⟨rfl, by simp⟩
  | cons e rest =>
    refine .inr ⟨e, rest, rfl, ?_⟩
    cases hr : e.rst
    · cases hd : decode s.rly.inClkPrev e.arrival.packet with
      | ok i => exact .inr (.inl ⟨rfl, i, rfl, by simp [hr, hd]⟩)
      | error r => exact .inr (.inr ⟨rfl, r, rfl, by simp [hr, hd, State.refuse]⟩)
    · exact .inl ⟨rfl, by simp [hr]⟩

end Sys2Proof.Machine
end

