-- ==== Sys2Proof/Laws/Exec.lean ====
section
/-! SUPPORT. What an instruction can do to the state, said once for all instructions (`exec_cases`). -/

namespace Sys2Proof.Machine

/-- What an instruction of a hand can make of that hand's registers when it writes them. -/
def HandChange (i : Instr) (g : Config) (inp : Inputs) (k : Calibration) (m : Sequencer)
    (p : Calibration × Sequencer) : Prop :=
  match i with
  | .plan _ _ => ∃ x, planMin g ≤ x ∧ x ≤ planMax g ∧ p = (k, { m with plannedSteps := x })
  | .stepf _ => p = (k, m.stepForward g)
  | .stepb _ => p = (k, m.stepBackward g)
  | .tryStep _ => p = (k, (m.tryStep g inp.now).1)
  | .rsto _ => p = (k, m.resetOrigin)
  | .recal _ a b d => p.1 = k ∧ m.recalibrate g a b d = .ok p.2
  | .cstart _ => p = (k.start, m)
  | .cadv h => cadvRow g (!(inp.hall h)) k m = .ok p
  | .cdrift h => driftCheck g (!(inp.hall h)) k m = .ok p
  | _ => False

theorem State.withHand_self (s : State) (h : Hand) : s.withHand h (s.cal h, s.seq h) = s := by
  simp [State.withHand]

/-- An instruction of a hand either writes nothing but its response, or writes its hand's registers and its response. -/
theorem exec_hand_cases {i : Instr} {h : Hand} {s t : State} (hh : Instr.hand? i = some h) (ht : exec i s = .next t) :
    (∃ r, t = { s with resp := r }) ∨
    ∃ p st v, HandChange i s.cfg s.inp (s.cal h) (s.seq h) p ∧ t = (s.withHand h p).respond st v := by
  cases i <;> simp only [Instr.hand?, Option.some.injEq, reduceCtorEq] at hh <;> subst hh
  case plan h d =>
    rcases State.answer_eq_next.mp ht with ⟨u, hu, rfl⟩ | ⟨e, _, rfl⟩
    · obtain ⟨h1, h2, rfl⟩ := State.plan_ok hu
      exact .inr ⟨_, .ok, 0, ⟨_, h1, h2, rfl⟩, by simp [State.withHand]⟩
    · exact .inl ⟨_, rfl⟩
  case stepf h =>
    cases ht
    exact .inr ⟨_, _, _, rfl, by simp [State.withHand]; rfl⟩
  case stepb h =>
    cases ht
    exact .inr ⟨_, _, _, rfl, by simp [State.withHand]; rfl⟩
  case tryStep h =>
    cases ht
    exact .inr ⟨_, _, _, rfl, by simp [State.withHand]; rfl⟩
  case rsto h =>
    cases ht
    exact .inr ⟨_, _, _, rfl, by simp [State.withHand]; rfl⟩
  case recal h a b d =>
    rcases State.answer_eq_next.mp ht with ⟨u, hu, rfl⟩ | ⟨e, _, rfl⟩
    · cases hm : (s.seq h).recalibrate s.cfg a b d with
      | error e => simp [hm, State.onSeq] at hu
      | ok m' =>
        simp only [hm, State.onSeq, Except.ok.injEq] at hu
        subst hu
        exact .inr ⟨(s.cal h, m'), .ok, 0, ⟨rfl, hm⟩, by simp only [State.withHand, State.withCal_self]⟩
    · exact .inl ⟨_, rfl⟩
  case cstart h =>
    cases ht
    refine .inr ⟨_, .ok, 0, rfl, ?_⟩
    cases h <;> rfl
  case cadv h =>
    simp only [exec, execCadv, State.inField] at ht
    split at ht
    · cases ht
      exact .inr ⟨_, _, _, ‹_›, rfl⟩
    · cases ht
      exact .inl ⟨_, rfl⟩
  case cdrift h =>
    simp only [exec, execCdrift, State.inField] at ht
    split at ht
    · cases ht
      exact .inr ⟨_, _, _, ‹_›, rfl⟩
    · cases ht
      exact .inl ⟨_, rfl⟩

/-- A dispatch of two planned steps, or its refusal. -/
theorem settle_planBoth_cases {s t : State} {dh dm : Direction} (ht : s.settle (s.planBoth dh dm) = .next t) :
    (∃ r, t = { s with resp := r }) ∨ PlansOnly s t := by
  rcases State.settle_eq_next.mp ht with hu | ⟨e, _, rfl⟩
  · exact .inr (State.planBoth_plansOnly hu)
  · exact .inl ⟨_, rfl⟩

/-- A dispatch of one planned step, or its refusal. -/
theorem settle_plan_cases {s t : State} {h : Hand} {d : Direction} (ht : s.settle (s.plan h d) = .next t) :
    (∃ r, t = { s with resp := r }) ∨ PlansOnly s t := by
  rcases State.settle_eq_next.mp ht with hu | ⟨e, _, rfl⟩
  · exact .inr (State.plan_plansOnly hu)
  · exact .inl ⟨_, rfl⟩

/-- Everything an instruction can do: write nothing but the response; write one hand's registers; plan steps (a move word);
restart homing (a trigger word); drain; end a pulse; release the relay; take an edge; see a clock level. -/
theorem exec_cases {i : Instr} {s t : State} (ht : exec i s = .next t) :
    (∃ r, t = { s with resp := r }) ∨
    (∃ h p st v, Instr.hand? i = some h ∧ HandChange i s.cfg s.inp (s.cal h) (s.seq h) p ∧
      t = (s.withHand h p).respond st v) ∨
    (i.isCommand = false ∧ i.isSample = false ∧ PlansOnly s t) ∨
    (∃ w, trig w = true ∧ i = decodeBusWord w ∧ t = s.restartHoming) ∨
    (i = .drain ∧ s.mbx.pending = true ∧ ∃ v,
      (trig s.mbx.data = false ∧ ∃ u, PlansOnly s u ∧ t = u.emptyMailbox.respond .ok v) ∨
      (trig s.mbx.data = true ∧ t = s.restartHoming.emptyMailbox.respond .ok v)) ∨
    (i = .tickp ∧ s.rly.clockLineHigh = true ∧
      s.cfg.minPulseWidth < elapsed s.cfg s.inp.now s.rly.lastSendTime ∧
      t = { s with rly := { s.rly with clockLineHigh := false } }.respond .ok 0) ∨
    (i = .ticki ∧ s.rly.relaying = true ∧
      s.cfg.interInstructionTimeout < elapsed s.cfg s.inp.now s.rly.lastReceiveTime ∧
      t = { s with rly := { s.rly with relaying := false, outData := 0b0000 } }.respond .ok 0) ∨
    (∃ w, i = .sampleEdge w ∧ t = (s.edge w).seeClk true) ∨
    (∃ c w, i = .sampleNoEdge c w ∧ t = s.seeClk c) := by
  cases hh : Instr.hand? i with
  | some h =>
    rcases exec_hand_cases hh ht with hr | ⟨p, st, v, hp, rfl⟩
    · exact .inl hr
    · exact .inr (.inl ⟨h, p, st, v, rfl, hp, rfl⟩)
  | none =>
    cases i <;> simp only [Instr.hand?, reduceCtorEq] at hh
    case diff =>
      simp only [exec, execDiff] at ht
      split_ifs at ht <;> (cases ht; exact .inl ⟨_, rfl⟩)
    case flp =>
      simp only [exec, execFlp] at ht
      split_ifs at ht <;> (cases ht; exact .inl ⟨_, rfl⟩)
    case sdir =>
      simp only [exec, execSdir] at ht
      split_ifs at ht <;> (cases ht; exact .inl ⟨_, rfl⟩)
    case ticki =>
      cases ht
      rcases State.ticki_cases s with h1 | ⟨h1, h2, h3⟩
      · exact .inl ⟨some ⟨.ok, 0⟩, by rw [h1]; rfl⟩
      · exact .inr (.inr (.inr (.inr (.inr (.inr (.inl ⟨rfl, h1, h2, by rw [h3]⟩))))))
    case tickp =>
      cases ht
      rcases State.tickp_cases s with h1 | ⟨h1, h2, h3⟩
      · exact .inl ⟨some ⟨.ok, 0⟩, by rw [h1]; rfl⟩
      · exact .inr (.inr (.inr (.inr (.inr (.inl ⟨rfl, h1, h2, by rw [h3]⟩)))))
    case drain =>
      rcases State.answer_eq_next.mp ht with ⟨u, hu, rfl⟩ | ⟨e, _, rfl⟩
      · rcases State.drain_ok hu with ⟨_, rfl⟩ | ⟨hp, u', hd, rfl⟩
        · exact .inl ⟨_, rfl⟩
        · refine .inr (.inr (.inr (.inr (.inl ⟨rfl, hp, drainValue s.mbx, ?_⟩))))
          rcases dispatch_ok hd with ⟨htr, rfl⟩ | ⟨htr, hpl⟩
          · exact .inr ⟨htr, rfl⟩
          · exact .inl ⟨htr, u', hpl, rfl⟩
      · exact .inl ⟨_, rfl⟩
    case sampleEdge w =>
      cases ht
      exact .inr (.inr (.inr (.inr (.inr (.inr (.inr (.inl ⟨w, rfl, rfl⟩)))))))
    case sampleNoEdge c w =>
      cases ht
      exact .inr (.inr (.inr (.inr (.inr (.inr (.inr (.inr ⟨c, w, rfl, rfl⟩)))))))
    case bnop =>
      cases ht
      exact .inr (.inr (.inl ⟨rfl, rfl, PlansOnly.refl _⟩))
    case bhome0011 =>
      cases ht
      exact .inr (.inr (.inr (.inl ⟨0b0011, rfl, rfl, rfl⟩)))
    case bhome0111 =>
      cases ht
      exact .inr (.inr (.inr (.inl ⟨0b0111, rfl, rfl, rfl⟩)))
    case bhome1011 =>
      cases ht
      exact .inr (.inr (.inr (.inl ⟨0b1011, rfl, rfl, rfl⟩)))
    case bhome1100 =>
      cases ht
      exact .inr (.inr (.inr (.inl ⟨0b1100, rfl, rfl, rfl⟩)))
    case bhome1101 =>
      cases ht
      exact .inr (.inr (.inr (.inl ⟨0b1101, rfl, rfl, rfl⟩)))
    case bhome1110 =>
      cases ht
      exact .inr (.inr (.inr (.inl ⟨0b1110, rfl, rfl, rfl⟩)))
    case bhome1111 =>
      cases ht
      exact .inr (.inr (.inr (.inl ⟨0b1111, rfl, rfl, rfl⟩)))
    case bmovHb =>
      rcases settle_plan_cases ht with hr | hr
      · exact .inl hr
      · exact .inr (.inr (.inl ⟨rfl, rfl, hr⟩))
    case bmovHf =>
      rcases settle_plan_cases ht with hr | hr
      · exact .inl hr
      · exact .inr (.inr (.inl ⟨rfl, rfl, hr⟩))
    case bmovMb =>
      rcases settle_plan_cases ht with hr | hr
      · exact .inl hr
      · exact .inr (.inr (.inl ⟨rfl, rfl, hr⟩))
    case bmovMf =>
      rcases settle_plan_cases ht with hr | hr
      · exact .inl hr
      · exact .inr (.inr (.inl ⟨rfl, rfl, hr⟩))
    case bmovHbMb =>
      rcases settle_planBoth_cases ht with hr | hr
      · exact .inl hr
      · exact .inr (.inr (.inl ⟨rfl, rfl, hr⟩))
    case bmovHfMb =>
      rcases settle_planBoth_cases ht with hr | hr
      · exact .inl hr
      · exact .inr (.inr (.inl ⟨rfl, rfl, hr⟩))
    case bmovHbMf =>
      rcases settle_planBoth_cases ht with hr | hr
      · exact .inl hr
      · exact .inr (.inr (.inl ⟨rfl, rfl, hr⟩))
    case bmovHfMf =>
      rcases settle_planBoth_cases ht with hr | hr
      · exact .inl hr
      · exact .inr (.inr (.inl ⟨rfl, rfl, hr⟩))

end Sys2Proof.Machine
end

