-- ==== Sys2Proof/Laws/PerInstr.lean ====
section
/-! SUPPORT. The statement made of every instruction as syntax, one lemma for each constructor: where its opcode and its
reserved field stand in the encoding (spec 30 R86, R88). -/

namespace Sys2Proof.Laws.FieldLayout

open Sys2Proof

/-- The `op` of a command (30 R86). -/
def opOf : Instr → Option Nat
  | .diff _ _ _ => some 0x0
  | .flp _ _ => some 0x1
  | .sdir _ _ => some 0x2
  | .ticki => some 0x3
  | .plan _ _ => some 0x4
  | .stepf _ => some 0x5
  | .stepb _ => some 0x6
  | .tryStep _ => some 0x7
  | .rsto _ => some 0x8
  | .recal _ _ _ _ => some 0x9
  | .tickp => some 0xA
  | .drain => some 0xB
  | .cstart _ => some 0xC
  | .cadv _ => some 0xD
  | .cdrift _ => some 0xE
  | .bnop | .bmovHb | .bmovHf | .bhome0011 | .bmovMb | .bmovHbMb | .bmovHfMb | .bhome0111 | .bmovMf | .bmovHbMf
  | .bmovHfMf | .bhome1011 | .bhome1100 | .bhome1101 | .bhome1110 | .bhome1111 => none
  | .sampleEdge _ | .sampleNoEdge _ _ => none

/-- A well-formed command is encoded as a command word with its own `op` in bits 31:28 and zero in `rsv`; any other
instruction is no command word. -/
def Statement (i : Instr) : Prop :=
  i.wellFormed = true →
    match encode i, opOf i with
    | .command w, some op => opField w = op ∧ rsvField w = 0
    | .command _, none => False
    | .sample _, o => o = none
    | .busWord _, o => o = none

/-- The fields of a word made of fields in range (30 R92). -/
theorem encodeFields_layout (op h d b a : Nat) (hop : op < 16) (hh : h < 2) (hd : d < 2) (hb : b < 2 ^ 12)
    (ha : a < 2 ^ 12) : ∃ w, encodeFields op h d b a = .command w ∧ opField w = op ∧ hField w = h ∧ dField w = d ∧
      rsvField w = 0 ∧ bField w = b ∧ aField w = a := by
  refine ⟨_, rfl, ?_⟩
  unfold opField hField dField rsvField bField aField
  rw [BitVec.toNat_ofNat, Nat.mod_eq_of_lt (by omega)]
  omega

theorem handBit_lt (h : Hand) : handBit h < 2 := by cases h <;> decide
theorem dirBit_lt (d : Direction) : dirBit d < 2 := by cases d <;> decide

/-- The statement for a command whose encoding has the fields given. -/
theorem of_fields {i : Instr} {op h d b a : Nat} (he : encode i = encodeFields op h d b a) (ho : opOf i = some op)
    (hop : op < 16) (hh : h < 2) (hd : d < 2) (hb : i.wellFormed = true → b < 2 ^ 12)
    (ha : i.wellFormed = true → a < 2 ^ 12) : Statement i := by
  intro hw
  obtain ⟨w, hw1, h1, _, _, h2, _⟩ := encodeFields_layout op h d b a hop hh hd (hb hw) (ha hw)
  rw [he, hw1, ho]
  exact ⟨h1, h2⟩

theorem diff (a b : Nat) (d : Direction) : Statement (.diff a b d) :=
  of_fields rfl rfl (by decide) (by decide) (dirBit_lt d) (by simp [Instr.wellFormed, fits12])
    (by simp +contextual [Instr.wellFormed, fits12])
theorem flp (a : Nat) (d : Direction) : Statement (.flp a d) :=
  of_fields rfl rfl (by decide) (by decide) (dirBit_lt d) (by simp) (by simp [Instr.wellFormed, fits12])
theorem sdir (a b : Nat) : Statement (.sdir a b) :=
  of_fields rfl rfl (by decide) (by decide) (by decide) (by simp [Instr.wellFormed, fits12])
    (by simp +contextual [Instr.wellFormed, fits12])
theorem ticki : Statement .ticki :=
  of_fields rfl rfl (by decide) (by decide) (by decide) (by simp) (by simp)
theorem plan (h : Hand) (d : Direction) : Statement (.plan h d) :=
  of_fields rfl rfl (by decide) (handBit_lt h) (dirBit_lt d) (by simp) (by simp)
theorem stepf (h : Hand) : Statement (.stepf h) :=
  of_fields rfl rfl (by decide) (handBit_lt h) (by decide) (by simp) (by simp)
theorem stepb (h : Hand) : Statement (.stepb h) :=
  of_fields rfl rfl (by decide) (handBit_lt h) (by decide) (by simp) (by simp)
theorem tryStep (h : Hand) : Statement (.tryStep h) :=
  of_fields rfl rfl (by decide) (handBit_lt h) (by decide) (by simp) (by simp)
theorem rsto (h : Hand) : Statement (.rsto h) :=
  of_fields rfl rfl (by decide) (handBit_lt h) (by decide) (by simp) (by simp)
theorem recal (h : Hand) (a b : Nat) (d : Direction) : Statement (.recal h a b d) :=
  of_fields rfl rfl (by decide) (handBit_lt h) (dirBit_lt d) (by simp [Instr.wellFormed, fits12])
    (by simp +contextual [Instr.wellFormed, fits12])
theorem tickp : Statement .tickp :=
  of_fields rfl rfl (by decide) (by decide) (by decide) (by simp) (by simp)
theorem drain : Statement .drain :=
  of_fields rfl rfl (by decide) (by decide) (by decide) (by simp) (by simp)
theorem cstart (h : Hand) : Statement (.cstart h) :=
  of_fields rfl rfl (by decide) (handBit_lt h) (by decide) (by simp) (by simp)
theorem cadv (h : Hand) : Statement (.cadv h) :=
  of_fields rfl rfl (by decide) (handBit_lt h) (by decide) (by simp) (by simp)
theorem cdrift (h : Hand) : Statement (.cdrift h) :=
  of_fields rfl rfl (by decide) (handBit_lt h) (by decide) (by simp) (by simp)
theorem bnop : Statement .bnop := fun _ => rfl
theorem bmovHb : Statement .bmovHb := fun _ => rfl
theorem bmovHf : Statement .bmovHf := fun _ => rfl
theorem bhome0011 : Statement .bhome0011 := fun _ => rfl
theorem bmovMb : Statement .bmovMb := fun _ => rfl
theorem bmovHbMb : Statement .bmovHbMb := fun _ => rfl
theorem bmovHfMb : Statement .bmovHfMb := fun _ => rfl
theorem bhome0111 : Statement .bhome0111 := fun _ => rfl
theorem bmovMf : Statement .bmovMf := fun _ => rfl
theorem bmovHbMf : Statement .bmovHbMf := fun _ => rfl
theorem bmovHfMf : Statement .bmovHfMf := fun _ => rfl
theorem bhome1011 : Statement .bhome1011 := fun _ => rfl
theorem bhome1100 : Statement .bhome1100 := fun _ => rfl
theorem bhome1101 : Statement .bhome1101 := fun _ => rfl
theorem bhome1110 : Statement .bhome1110 := fun _ => rfl
theorem bhome1111 : Statement .bhome1111 := fun _ => rfl
theorem sampleEdge (w : BusWord) : Statement (.sampleEdge w) := fun _ => rfl
theorem sampleNoEdge (c : Bool) (w : BusWord) : Statement (.sampleNoEdge c w) := fun _ => rfl

end Sys2Proof.Laws.FieldLayout
end

