-- ==== Sys2Proof/Tests/Slice0.lean ====
section
/-! SUPPORT. Tests: ill-formed terms, words written out from the spec's encodings, one or two steps of each operation with
the spec's own vectors (95) as expected results, and a witness for the hypotheses of each statement. -/

open Sys2Proof Sys2Proof.Machine

namespace Sys2Proof.Tests

/-! ### Small states -/

/-- The parameters of the vectors of 95: the defaults with the illustrative thresholds. -/
def vcfg : Config where
  stepsPerRev := 1705
  nPhases := 8
  coilTable := halfStepTable
  minStepInterval := 2000
  standstillTimeout := 1000000
  minPulseWidth := 50
  interInstructionTimeout := 5000
  minStepsOutsideField := 50
  minWidthForRecalibration := 10
  minStepsOffForRecalibration := 4
  wPlan := 16
  wCnt := 16
  wTime := 32
  phaseReset := 1
  lastdirReset := .backward

/-- The reset state of the vectors. -/
def v0 : State := State.resetWith vcfg

/-- `s` read at time `t` with the hour hand's hall pin at a level. -/
def inputsAt (t : Nat) (hall : Bool) (s : State) : State := { s with inp := { now := t, hallH := hall, hallM := true } }

/-- A sequencer with its coils energized as its phase drives them. -/
def seqAt (pos ph : Nat) (plan : Int) (lst : Nat) (ld : Direction) : Sequencer where
  position := pos
  commutationPhase := ph
  plannedSteps := plan
  coilsEnergized := true
  lastStepTime := lst
  lastDirection := ld
  coil := coilPattern vcfg ph

/-- A calibration controller that tracks no field. -/
def calAt (ph : CalPhase) (cnt : Nat) : Calibration :=
  { Calibration.reset with phase := ph, stepCount := cnt }

/-- A calibrated controller inside a field entered at `ep` in direction `ed`. -/
def tracking (ep : Nat) (ed : Direction) (ign : Bool) : Calibration where
  phase := .calibrated
  stepCount := 0
  trackingInField := true
  enterPosition := ep
  enterDirection := ed
  ignoreNextField := ign

/-- A node with the given hour hand. -/
def hourAt (m : Sequencer) (k : Calibration) : State := { v0 with seqH := m, calH := k }

/-- A node with a word in the mailbox. -/
def withWord (w : BusWord) (s : State) : State := { s with mbx := { pending := true, data := w } }

/-- A node that relays. -/
def relayAt (od : BusWord) (clk : Bool) (lrt lsend : Nat) : State :=
  { v0 with rly := { relaying := true, clockLineHigh := clk, outData := od, lastReceiveTime := lrt,
                     lastSendTime := lsend, inClkPrev := false } }

/-- The next state, or the state before where there is none. -/
def after (i : Instr) (s : State) : State :=
  match exec i s with
  | .next t => t
  | .fault _ => s
  | .refused _ => s

/-- The response word after an instruction (30 R85). -/
def respWord (i : Instr) (s : State) : Option Nat := (after i s).resp.map (fun r => r.word.toNat)

/-- The state after a step. -/
def stepped (s : State) : State :=
  match step s with
  | .next t => t
  | .fault _ => s
  | .refused _ => s

theorem test_vector_parameters_are_legal : vcfg.Ok := by decide

/-! ### Well-formedness: an ill-formed term for each check -/

theorem test_illformed_diff_from : (Instr.diff 4096 0 .forward).wellFormed = false := by decide
theorem test_illformed_diff_to : (Instr.diff 0 4096 .forward).wellFormed = false := by decide
theorem test_illformed_flp : (Instr.flp 4096 .backward).wellFormed = false := by decide
theorem test_illformed_sdir_from : (Instr.sdir 4096 0).wellFormed = false := by decide
theorem test_illformed_sdir_to : (Instr.sdir 0 4096).wellFormed = false := by decide
theorem test_illformed_recal_target : (Instr.recal .hour 4096 0 .forward).wellFormed = false := by decide
theorem test_illformed_recal_off : (Instr.recal .minute 0 4096 .forward).wellFormed = false := by decide
theorem test_wellformed_largest_operands : (Instr.recal .minute 4095 4095 .forward).wellFormed = true := by decide
theorem test_edge_not_selected_after_high : Instr.selectedAt true (.sampleEdge 0b0001) = false := by decide
theorem test_no_edge_not_selected_on_edge : Instr.selectedAt false (.sampleNoEdge true 0b0001) = false := by decide

/-! ### Decoding: words written out from 30 R86, R81, R80 and from 95 -/

theorem test_decode_diff : decodeCommand 0x0401E014 = .ok (.diff 20 30 .forward) := by decide
theorem test_decode_diff_backward : decodeCommand 0x0067C672 = .ok (.diff 1650 1660 .backward) := by decide
theorem test_decode_flp : decodeCommand 0x140000C8 = .ok (.flp 200 .forward) := by decide
theorem test_decode_sdir : decodeCommand 0x205DC640 = .ok (.sdir 1600 1500) := by decide
theorem test_decode_ticki : decodeCommand 0x30000000 = .ok .ticki := by decide
theorem test_decode_plan_hb : decodeCommand 0x40000000 = .ok (.plan .hour .backward) := by decide
theorem test_decode_plan_mf : decodeCommand 0x4C000000 = .ok (.plan .minute .forward) := by decide
theorem test_decode_stepf : decodeCommand 0x58000000 = .ok (.stepf .minute) := by decide
theorem test_decode_stepb : decodeCommand 0x60000000 = .ok (.stepb .hour) := by decide
theorem test_decode_try : decodeCommand 0x78000000 = .ok (.tryStep .minute) := by decide
theorem test_decode_rsto : decodeCommand 0x88000000 = .ok (.rsto .minute) := by decide
theorem test_decode_recal : decodeCommand 0x9000200A = .ok (.recal .hour 10 2 .backward) := by decide
theorem test_decode_recal_minute : decodeCommand 0x9C00069F = .ok (.recal .minute 1695 0 .forward) := by decide
theorem test_decode_tickp : decodeCommand 0xA0000000 = .ok .tickp := by decide
theorem test_decode_drain : decodeCommand 0xB0000000 = .ok .drain := by decide
theorem test_decode_cstart : decodeCommand 0xC8000000 = .ok (.cstart .minute) := by decide
theorem test_decode_cadv : decodeCommand 0xD0000000 = .ok (.cadv .hour) := by decide
theorem test_decode_cdrift : decodeCommand 0xE8000000 = .ok (.cdrift .minute) := by decide
theorem test_decode_bus_words :
    [0b0000, 0b0001, 0b0010, 0b0011, 0b0100, 0b0101, 0b0110, 0b0111].map decodeBusWord =
      [.bnop, .bmovHb, .bmovHf, .bhome0011, .bmovMb, .bmovHbMb, .bmovHfMb, .bhome0111] := by decide
theorem test_decode_bus_words_with_MF :
    [0b1000, 0b1001, 0b1010, 0b1011, 0b1100, 0b1101, 0b1110, 0b1111].map decodeBusWord =
      [.bmovMf, .bmovHbMf, .bmovHfMf, .bhome1011, .bhome1100, .bhome1101, .bhome1110, .bhome1111] := by decide
theorem test_decode_sample_edge : decodeSample false 0b10110 = .sampleEdge 0b0110 := by decide
theorem test_decode_sample_still_high : decodeSample true 0b10110 = .sampleNoEdge true 0b0110 := by decide
theorem test_decode_sample_low : decodeSample true 0b01111 = .sampleNoEdge false 0b1111 := by decide

theorem test_refused_words :
    [0xF0000000, 0xF1234567, 0x31000000, 0x38000000, 0x2400A000, 0x50000001, 0x14001000, 0x08000000,
      0x020006A9].map decodeCommand =
    [.error .illegalOp, .error .illegalOp, .error .reservedBits, .error .reservedBits, .error .reservedBits,
      .error .reservedBits, .error .reservedBits, .error .reservedBits, .error .reservedBits] := by decide

theorem test_table_words :
    decodeTableWord 32 0x90000000 = some (.recal .hour 0 0 .backward) ∧ decodeTableWord 8 0b0110 = some .bmovHfMb ∧
      decodeTableWord 8 0b10110 = some (.sampleEdge 0b0110) ∧ decodeTableWord 32 0xF0000000 = none := by decide

/-! ### Position modulo-arithmetic unit: V-PMU -/

theorem test_diff_wraps : respWord (.diff 1650 1660 .backward) v0 = some 0x069F := by decide
theorem test_diff_range : respWord (.diff 1705 0 .forward) v0 = some 0x6000 := by decide
theorem test_flp_whole_ring : respWord (.flp 1 .backward) v0 = some 0x06A9 := by decide
theorem test_flp_range : respWord (.flp 1706 .forward) v0 = some 0x6000 := by decide
theorem test_sdir_forward : respWord (.sdir 0 852) v0 = some 1 := by decide
theorem test_sdir_tie : respWord (.sdir 7 7) v0 = some 0 := by decide

/-! ### Sequencer: V-SEQ -/

theorem test_plan_overflow : respWord (.plan .hour .forward) (hourAt (seqAt 0 1 32767 0 .forward) .reset) = some 0x8000 ∧
    (after (.plan .hour .forward) (hourAt (seqAt 0 1 32767 0 .forward) .reset)).seqH.plannedSteps = 32767 := by decide
theorem test_plan_cancels :
    (after (.plan .hour .backward) (hourAt (seqAt 0 1 3 0 .forward) .reset)).seqH.plannedSteps = 2 := by decide
theorem test_stepf_wraps :
    (after (.stepf .hour) (hourAt (seqAt 1704 8 3 7 .backward) .reset)).seqH =
      { position := 0, commutationPhase := 1, plannedSteps := 3, coilsEnergized := true, lastStepTime := 7,
        lastDirection := .forward, coil := 0b0001 } := by decide
theorem test_stepb_wraps :
    (after (.stepb .minute) v0).seqM =
      { position := 1704, commutationPhase := 8, plannedSteps := 0, coilsEnergized := true, lastStepTime := 0,
        lastDirection := .backward, coil := 0b1001 } := by decide
theorem test_try_at_interval :
    (after (.tryStep .hour) (inputsAt 0x6D0 true (hourAt (seqAt 100 3 1 0xFFFFFF00 .backward) .reset))).seqH =
      { position := 101, commutationPhase := 4, plannedSteps := 0, coilsEnergized := true, lastStepTime := 1744,
        lastDirection := .forward, coil := 0b0110 } := by decide
theorem test_try_standstill :
    (after (.tryStep .hour) (inputsAt 1012001 true (hourAt (seqAt 2 3 0 12000 .forward) .reset))).seqH =
      { position := 2, commutationPhase := 3, plannedSteps := 0, coilsEnergized := false, lastStepTime := 12000,
        lastDirection := .forward, coil := 0b0000 } := by decide
theorem test_rsto :
    (after (.rsto .hour) (hourAt (seqAt 510 7 (-3) 77000 .backward) .reset)).seqH =
      { position := 0, commutationPhase := 7, plannedSteps := 0, coilsEnergized := false, lastStepTime := 0,
        lastDirection := .backward, coil := 0b0000 } := by decide
theorem test_recal_wraps :
    (after (.recal .hour 0 3 .forward) (hourAt (seqAt 3 1 5 0 .forward) .reset)).seqH = seqAt 1702 1 8 0 .forward := by
  decide
theorem test_recal_refusals :
    respWord (.recal .hour 1705 0 .forward) v0 = some 0x6000 ∧
      respWord (.recal .hour 10 10 .forward) (hourAt (seqAt 0 1 32760 0 .forward) .reset) = some 0x8000 := by decide

/-! ### Relay: V-RLY -/

theorem test_sample_latches :
    (after (.sampleEdge 0b0100) (withWord 0b0001 (inputsAt 9000 true v0))).mbx = { pending := true, data := 0b0100 } ∧
      (after (.sampleEdge 0b0100) (withWord 0b0001 (inputsAt 9000 true v0))).rly.lastReceiveTime = 9000 := by decide
theorem test_sample_forwards :
    (after (.sampleEdge 0b1000) (withWord 0b0010 (inputsAt 200 true (relayAt 0b0000 false 100 0)))).rly =
      { relaying := true, clockLineHigh := true, outData := 0b1000, lastReceiveTime := 200, lastSendTime := 200,
        inClkPrev := true } := by decide
theorem test_sample_no_edge :
    after (.sampleNoEdge true 0b0110) v0 = { v0 with rly := { v0.rly with inClkPrev := true } } := by decide
theorem test_tickp_across_the_wrap :
    (after .tickp (inputsAt 0x30 true (relayAt 0b0001 true 0 0xFFFFFFF0))).rly.clockLineHigh = false ∧
      (after .tickp (inputsAt 0x30 true (relayAt 0b0001 true 0 0xFFFFFFF0))).rly.outData = 0b0001 := by decide
theorem test_tickp_waits : (after .tickp (inputsAt 1050 true (relayAt 0 true 0 1000))).rly.clockLineHigh = true := by
  decide
theorem test_ticki_releases :
    (after .ticki (inputsAt 6001 true (relayAt 0b0110 true 1000 0))).rly =
      { relaying := false, clockLineHigh := true, outData := 0b0000, lastReceiveTime := 1000, lastSendTime := 0,
        inClkPrev := false } := by decide
theorem test_ticki_waits : (after .ticki (inputsAt 6000 true (relayAt 0b0110 true 1000 0))).rly.relaying = true := by
  decide
theorem test_drain_moves :
    respWord .drain (withWord 0b0010 v0) = some 18 ∧ (after .drain (withWord 0b0010 v0)).seqH.plannedSteps = 1 ∧
      (after .drain (withWord 0b0010 v0)).mbx = { pending := false, data := 0b0010 } := by decide
theorem test_drain_refused_whole :
    let s := withWord 0b1010 (hourAt (seqAt 0 1 32767 0 .forward) .reset)
    after .drain s = s.respond .planOverflow 0 := by decide

/-! ### Bus words: V-BUS -/

/-- Steps owed of the two hands after a bus word, from none owed. -/
def owed (i : Instr) : Int × Int := ((after i v0).seqH.plannedSteps, (after i v0).seqM.plannedSteps)

theorem test_bnop : after .bnop v0 = v0 := by decide
theorem test_bmovHb : owed .bmovHb = (-1, 0) := by decide
theorem test_bmovHf : owed .bmovHf = (1, 0) := by decide
theorem test_bmovMb : owed .bmovMb = (0, -1) := by decide
theorem test_bmovHbMb : owed .bmovHbMb = (-1, -1) := by decide
theorem test_bmovHfMb : owed .bmovHfMb = (1, -1) := by decide
theorem test_bmovMf : owed .bmovMf = (0, 1) := by decide
theorem test_bmovHbMf : owed .bmovHbMf = (-1, 1) := by decide
theorem test_bmovHfMf : owed .bmovHfMf = (1, 1) := by decide

/-- Both hands calibrated, the hour hand with steps owed. -/
def homed : State := { hourAt (seqAt 9 1 7 0 .forward) (calAt .calibrated 12) with calM := calAt .calibrated 0 }

/-- A trigger word takes both controllers to FindField, count 0, and leaves the steps owed. -/
def rehomes (i : Instr) : Bool :=
  after i homed == { homed with calH := calAt .findField 0, calM := calAt .findField 0 }

theorem test_bhome0011 : rehomes .bhome0011 = true := by decide
theorem test_bhome0111 : rehomes .bhome0111 = true := by decide
theorem test_bhome1011 : rehomes .bhome1011 = true := by decide
theorem test_bhome1100 : rehomes .bhome1100 = true := by decide
theorem test_bhome1101 : rehomes .bhome1101 = true := by decide
theorem test_bhome1110 : rehomes .bhome1110 = true := by decide
theorem test_bhome1111 : rehomes .bhome1111 = true := by decide

/-! ### Calibration: V-CAL -/

theorem test_cstart_keeps_ignore :
    (after (.cstart .hour) (hourAt (seqAt 77 1 4 0 .forward) { calAt .calibrated 9 with ignoreNextField := true })) =
      (hourAt (seqAt 77 1 4 0 .forward) { calAt .findField 0 with ignoreNextField := true }).respond .ok 0 := by decide
theorem test_cadv_retreats :
    (after (.cadv .hour) (inputsAt 0 false (hourAt (seqAt 0 1 0 0 .forward) (calAt .findField 50)))).calH =
      calAt .leaveField 51 := by decide
theorem test_cadv_centered :
    let s := hourAt (seqAt 510 7 6 5 .backward) (calAt .centering 0)
    after (.cadv .hour) s =
      (hourAt { position := 0, commutationPhase := 7, plannedSteps := 0, coilsEnergized := false, lastStepTime := 0,
                lastDirection := .backward, coil := 0b0000 }
        { calAt .calibrated 0 with ignoreNextField := true }).respond .ok 1 := by decide
theorem test_cdrift_odd_width :
    (after (.cdrift .hour) (hourAt (seqAt 13 1 0 0 .forward) (tracking 1699 .forward false))).seqH =
        seqAt 11 1 (-2) 0 .forward ∧
      (after (.cdrift .hour) (hourAt (seqAt 13 1 0 0 .forward) (tracking 1699 .forward false))).calH =
        { tracking 1699 .forward true with trackingInField := false } := by decide
theorem test_cdrift_refused_whole :
    let s := hourAt (seqAt 14 1 (-32767) 0 .forward) (tracking 1699 .forward false)
    after (.cdrift .hour) s = s.respond .planOverflow 0 := by decide

/-! ### Steps, reset, chain, driver, text -/

theorem test_step_runs_the_table_word :
    (stepped (v0.withFetchWord 32 0x4C000000)).seqM.plannedSteps = 1 ∧
      (stepped (v0.withFetchWord 8 0b1000)).seqM.plannedSteps = 1 ∧
      (stepped (v0.withFetchWord 8 0b10001)).mbx = { pending := true, data := 0b0001 } := by decide
theorem test_step_refuses :
    (stepped (v0.withFetchWord 32 0xF1234567)).resp = some { status := .illegalOp, value := 0 } := by decide
theorem test_rst_drops_the_sample :
    (stepped { relayAt 0b0110 true 5 5 with
      events := [{ rst := true, inputs := { now := 9, hallH := true, hallM := true }, arrival := .sample 0b11111 }] }) =
      inputsAt 9 true v0 := by decide
theorem test_sample_before_command :
    (cycleEvents v0.inp 0b10010 (some 0xB0000000)).map Event.arrival = [.sample 0b10010, .command 0xB0000000] := by
  decide
theorem test_illegal_configuration :
    State.build { vcfg with stepsPerRev := 4096 } = .error .illegalConfig ∧ State.build vcfg = .ok v0 := by decide

/-- The upstream node of program P4 after it forwarded `1001`. -/
def upstream : State := relayAt 0b1001 true 1100 1100

theorem test_chain_second_node_latches :
    (match chainStep [upstream, v0] 1
        { rst := false, inputs := { now := 1101, hallH := true, hallM := true }, arrival := .sample 0 } with
      | .next ns => ns.map State.mbx
      | .fault _ => []
      | .refused _ => []) = [{ pending := false, data := 0 }, { pending := true, data := 0b1001 }] := by decide
theorem test_loopbody_expands :
    Pseudo.loopBody.expand = [.issue .drain, .issue .tickp, .issue .ticki, .issue (.tryStep .hour),
      .ifOne (.cdrift .hour), .issue (.tryStep .minute), .ifOne (.cdrift .minute)] := by decide
theorem test_move_expands : (Pseudo.move .minute (-2)).expand =
    [.issue (.plan .minute .backward), .issue (.plan .minute .backward)] := by decide
theorem test_service_skips_the_drift_check :
    nextIssue (some { status := .ok, value := 0 }) [.ifOne (.cdrift .hour)] = none := by decide
theorem test_text : asmLine (.recal .hour 10 2 .backward) = "RECAL H, 10, 2, B" ∧ asmLine .bmovHfMb = "BMOV HF,MB" ∧
    asmLine (.sampleEdge 0b0110) = "SAMPLE 1, 0110" := by decide

/-! ### Witnesses: concrete states and operands that meet the hypotheses of each statement, clause by clause -/

/-- A node with hour hand `m` and calibration `k`, at time `t`. -/
def hourAtTime (t : Nat) (m : Sequencer) (k : Calibration) : State := inputsAt t true (hourAt m k)

/-- Hour hand at the top of ring and phases, three steps owed, at time 5000. -/
def warm : State := hourAtTime 5000 (seqAt 1704 8 3 1000 .forward) .reset
/-- Hour hand at position 0 and phase 1, three steps owed backward. -/
def cold : State := hourAtTime 5000 (seqAt 0 1 (-3) 1000 .backward) .reset
/-- Hour hand energized with nothing owed, last stepped at 1000. -/
def idleAt (t : Nat) : State := hourAtTime t (seqAt 7 3 0 1000 .forward) .reset

theorem witness_PmuCommandsChangeNothing :
    (∃ a b d, Instr.diff 1704 0 .backward = .diff a b d) ∧ (∃ a d, Instr.flp 1705 .forward = .flp a d) ∧
      (∃ a b, Instr.sdir 0 1704 = .sdir a b) := ⟨⟨_, _, _, rfl⟩, ⟨_, _, rfl⟩, ⟨_, _, rfl⟩⟩
theorem witness_DiffLawsOnTheRing :
    (1704 < vcfg.stepsPerRev ∧ 0 < vcfg.stepsPerRev ∧ (1704 : Nat) ≠ 0) ∧ (1704 : Nat) = 1704 := by decide
theorem witness_ShortestDirectionIsShortest :
    0 < vcfg.stepsPerRev ∧ 852 < vcfg.stepsPerRev ∧ (0 : Nat) ≠ 852 := by decide
theorem witness_BackwardCrossingResidual :
    (2 ≤ 2 ∧ 2 + 4 < vcfg.stepsPerRev) ∧ (2 ≤ 1700 ∧ 1700 + 4 < vcfg.stepsPerRev) ∧ 2 ≤ 21 ∧ 21 + 4 < vcfg.stepsPerRev := by
  decide
theorem witness_PlanQueuesOneStep :
    (32768 : Int) = ((hourAt (seqAt 0 1 32767 0 .forward) .reset).seq .hour).plannedSteps +
        (if Direction.forward = .forward then 1 else -1) ∧
      (-32768 : Int) = ((hourAt (seqAt 0 1 (-32767) 0 .forward) .reset).seq .hour).plannedSteps +
        (if Direction.backward = .forward then 1 else -1) := by decide
theorem witness_StepForwardTakesTheNextPhase : warm.Inv ∧ cold.Inv := ⟨by decide, by decide⟩
theorem witness_StepBackwardTakesThePreviousPhase :
    cold.Inv ∧ warm.Inv ∧ (warm.seq .hour).coilsEnergized = true ∧
      ((Instr.stepf .hour = .stepf .hour ∧ Instr.stepb .hour = .stepb .hour ∧ Direction.backward = .backward) ∨
        (Instr.stepf .hour = .stepb .hour ∧ Instr.stepb .hour = .stepf .hour ∧ Direction.backward = .forward)) :=
  ⟨by decide, by decide, rfl, .inl ⟨rfl, rfl, rfl⟩⟩
theorem witness_TryFollowsItsFourLines_idle :
    ((v0.seq .hour).coilsEnergized = false ∧ (v0.seq .hour).plannedSteps = 0) ∧
    (((idleAt 1001001).seq .hour).coilsEnergized = true ∧ ((idleAt 1001001).seq .hour).plannedSteps = 0 ∧
      elapsed vcfg 1001001 ((idleAt 1001001).seq .hour).lastStepTime > vcfg.standstillTimeout) ∧
    elapsed vcfg 1001000 ((idleAt 1001000).seq .hour).lastStepTime = vcfg.standstillTimeout := by decide
theorem witness_TryFollowsItsFourLines_owed :
    (warm.seq .hour).plannedSteps > 0 ∧ (cold.seq .hour).plannedSteps < 0 ∧
      elapsed vcfg 2999 (warm.seq .hour).lastStepTime < vcfg.minStepInterval ∧
      elapsed vcfg 3000 (warm.seq .hour).lastStepTime = vcfg.minStepInterval := by decide
theorem witness_TryExecutesAtMostOneStep :
    warm.Inv ∧ exec (.tryStep .hour) warm = .next (after (.tryStep .hour) warm) ∧
      0 < (warm.seq .hour).plannedSteps ∧ cold.Inv ∧
      exec (.tryStep .hour) cold = .next (after (.tryStep .hour) cold) ∧ (cold.seq .hour).plannedSteps < 0 :=
  ⟨by decide, rfl, by decide, by decide, rfl, by decide⟩

/-- `TICKI` between two step attempts, at the time the second one reads. -/
def between : State := after .ticki { after (.tryStep .hour) warm with inp := { warm.inp with now := 7000 }, resp := none }

theorem witness_TryNeverStepsTwiceWithinTheInterval :
    exec (.tryStep .hour) warm = .next (after (.tryStep .hour) warm) ∧
    (after (.tryStep .hour) warm).resp = some { status := .ok, value := 1 } ∧
    Relation.ReflTransGen (QuietFor .hour) (after (.tryStep .hour) warm) between ∧
    exec (.tryStep .hour) between = .next (after (.tryStep .hour) between) ∧
    (after (.tryStep .hour) between).resp = some { status := .ok, value := 1 } :=
  ⟨rfl, by decide,
    .single ⟨.ticki, { warm.inp with now := 7000 }, rfl, by decide, by decide, by decide⟩,
    rfl, by decide⟩
theorem witness_OnlyTryAndRstoWriteTheStepTime :
    exec (.stepf .hour) warm = .next (after (.stepf .hour) warm) ∧
      exec (.tryStep .hour) warm = .next (after (.tryStep .hour) warm) ∧
      (after (.tryStep .hour) warm).seqH.lastStepTime = 5000 ∧
      exec (.rsto .hour) warm = .next (after (.rsto .hour) warm) :=
  ⟨rfl, rfl, by decide, rfl⟩
theorem witness_RecalAppliesTheSoftCorrection :
    ((5 : Int) = (warm.seq .hour).plannedSteps + (if Direction.forward = .forward then ((2 : Nat) : Int) else -(2 : Nat)) ∧
      (1703 : Int) = (if Direction.forward = .forward then ((0 : Int) - 2) % 1705 else ((0 : Int) + 2) % 1705)) ∧
    respWord (.recal .hour 0 1705 .forward) warm = some 0x6000 ∧
    respWord (.recal .hour 0 1704 .backward) (hourAt (seqAt 0 1 (-32768) 0 .forward) .reset) = some 0x8000 := by decide

/-- V-SEQ-17, at time 5000. -/
def corrected : State := after (.recal .hour 10 2 .backward) (hourAtTime 5000 (seqAt 14 1 0 1000 .forward) .reset)

theorem witness_RecalConvergesOnTheTarget :
    exec (.recal .hour 10 2 .backward) (hourAtTime 5000 (seqAt 14 1 0 1000 .forward) .reset) = .next corrected ∧
    corrected.resp = some { status := .ok, value := 0 } ∧
    (stepsTaken .hour corrected [{ now := 5000, hallH := true, hallM := true },
      { now := 7000, hallH := true, hallM := true }]).isSome = true := ⟨rfl, by decide, by decide⟩
theorem witness_PhaseMovesOnlyWithPosition :
    warm.Inv ∧ exec (.recal .hour 9 0 .forward) warm = .next (after (.recal .hour 9 0 .forward) warm) ∧
      exec (.stepf .hour) warm = .next (after (.stepf .hour) warm) ∧
      exec (.stepb .hour) warm = .next (after (.stepb .hour) warm) := ⟨by decide, rfl, rfl, rfl⟩
theorem witness_EnergizedExactlyWhenACoilIsDriven :
    (warm.Inv ∧ (warm.seq .hour).coilsEnergized = true) ∧ v0.Inv ∧ (v0.seq .hour).coil = 0b0000 :=
  ⟨⟨by decide, by decide⟩, by decide, by decide⟩
theorem witness_SamplesLatchForwardOrPass :
    (relayAt 0b0000 false 100 0).rly.relaying = true ∧ v0.rly.relaying = false := by decide

/-- `s` with a pin sample as its next event. -/
def withSample (v : PinSample) (s : State) : State :=
  { s with events := [{ rst := false, inputs := { now := 40, hallH := true, hallM := true }, arrival := .sample v }] }

theorem witness_SampleDetectsTheRisingEdge :
    (withSample 0b10110 v0).events =
      { rst := false, inputs := { now := 40, hallH := true, hallM := true }, arrival := .sample 0b10110 } :: [] ∧
    ((0b10110 : PinSample).getLsbD 4 = true ∧ (withSample 0b10110 v0).rly.inClkPrev = false) ∧
    ¬ ((0b00110 : PinSample).getLsbD 4 = true ∧ (withSample 0b00110 v0).rly.inClkPrev = false) := by decide
theorem witness_ElapsedTimeWraps :
    0x6D0 < 2 ^ vcfg.wTime ∧ 0xFFFFFF00 < 2 ^ vcfg.wTime ∧ ¬ 0xFFFFFF00 ≤ 0x6D0 ∧ 0xFFFFFFFF < 2 ^ vcfg.wTime := by
  decide

/-- A full queue of steps owed with the word `BMOV HF,MF` pending (V-RLY-18). -/
def fullQueue : State := withWord 0b1010 (hourAt (seqAt 0 1 32767 0 .forward) .reset)

theorem witness_DrainDispatchesThePendingWord :
    (v0.Inv ∧ v0.mbx.pending = false) ∧
    ((withWord 0b0011 v0).Inv ∧ (withWord 0b0011 v0).mbx.pending = true ∧ trig (withWord 0b0011 v0).mbx.data = true) ∧
    (fullQueue.Inv ∧ fullQueue.mbx.pending = true ∧ trig fullQueue.mbx.data = false ∧
      (32768 : Int) = fullQueue.seqH.plannedSteps + (fullQueue.mbx.data.getLsbD 1).toNat -
        (fullQueue.mbx.data.getLsbD 0).toNat ∧
      (1 : Int) = fullQueue.seqM.plannedSteps + (fullQueue.mbx.data.getLsbD 3).toNat -
        (fullQueue.mbx.data.getLsbD 2).toNat) :=
  ⟨⟨by decide, by decide⟩, ⟨by decide, by decide, by decide⟩, by decide, by decide, by decide, by decide, by decide⟩

/-- A relay whose pulse and burst are both over time. -/
def overdue : State := inputsAt 6001 true (relayAt 0b0110 true 1000 1000)

theorem witness_TickHalvesCommute :
    exec .tickp overdue = .next (after .tickp overdue) ∧
      exec .ticki (after .tickp overdue) = .next (after .ticki (after .tickp overdue)) ∧
      exec .ticki overdue = .next (after .ticki overdue) ∧
      exec .tickp (after .ticki overdue) = .next (after .tickp (after .ticki overdue)) := ⟨rfl, rfl, rfl, rfl⟩
theorem witness_OnlyALatchingEdgeMakesAWordPending :
    exec (.sampleEdge 0b0110) v0 = .next (after (.sampleEdge 0b0110) v0) ∧ v0.mbx.pending = false ∧
      (after (.sampleEdge 0b0110) v0).mbx.pending = true := ⟨rfl, by decide, by decide⟩
theorem witness_RelayingProtectsTheMailbox :
    exec (.sampleEdge 0b1000) (withWord 0b0010 overdue) = .next (after (.sampleEdge 0b1000) (withWord 0b0010 overdue)) ∧
      (withWord 0b0010 overdue).rly.relaying = true ∧
      (after (.sampleEdge 0b1000) (withWord 0b0010 overdue)).mbx.pending = true := ⟨rfl, by decide, by decide⟩
theorem witness_PulseLastsBeyondItsMinimum :
    (exec .tickp overdue = .next (after .tickp overdue) ∧ overdue.rly.clockLineHigh = true ∧
      (after .tickp overdue).rly.clockLineHigh = false) ∧
    (exec (.sampleEdge 0b0001) (relayAt 0 false 9 9) = .next (after (.sampleEdge 0b0001) (relayAt 0 false 9 9)) ∧
      (relayAt 0 false 9 9).rly.clockLineHigh = false ∧
      (after (.sampleEdge 0b0001) (relayAt 0 false 9 9)).rly.clockLineHigh = true) :=
  ⟨⟨rfl, by decide, by decide⟩, rfl, by decide, by decide⟩
theorem witness_OutputPinsHoldTheirLevel :
    exec .ticki overdue = .next (after .ticki overdue) ∧ (after .ticki overdue).rly.outData ≠ overdue.rly.outData ∧
      exec .tickp overdue = .next (after .tickp overdue) ∧ (after .tickp overdue).outClk ≠ overdue.outClk ∧
      exec (.stepf .hour) warm = .next (after (.stepf .hour) warm) ∧
      ((after (.stepf .hour) warm).seq .hour).coil ≠ (warm.seq .hour).coil :=
  ⟨rfl, by decide, rfl, by decide, rfl, by decide⟩
theorem witness_MoveWordsPlanOneStepPerFlag :
    v0.Inv ∧ fullQueue.Inv ∧
      ((.bmovHfMf, 0b1010, 1, 1) : Instr × BusWord × Int × Int) ∈
        ([(.bnop, 0b0000, 0, 0), (.bmovHb, 0b0001, -1, 0), (.bmovHf, 0b0010, 1, 0),
          (.bmovMb, 0b0100, 0, -1), (.bmovHbMb, 0b0101, -1, -1), (.bmovHfMb, 0b0110, 1, -1), (.bmovMf, 0b1000, 0, 1),
          (.bmovHbMf, 0b1001, -1, 1), (.bmovHfMf, 0b1010, 1, 1)] : List (Instr × BusWord × Int × Int)) ∧
      after .bmovHfMf fullQueue = fullQueue.respond .planOverflow 0 := ⟨by decide, by decide, by decide, by decide⟩
theorem witness_HomeWordsRestartBothHands :
    ((.bhome1100, 0b1100) : Instr × BusWord) ∈
      ([(.bhome0011, 0b0011), (.bhome0111, 0b0111), (.bhome1011, 0b1011), (.bhome1100, 0b1100),
        (.bhome1101, 0b1101), (.bhome1110, 0b1110), (.bhome1111, 0b1111)] : List (Instr × BusWord)) := by decide
theorem witness_DrainRunsTheWordInTheMailbox :
    ((withWord 0b0010 v0).mbx = { pending := true, data := 0b0010 } ∧ (withWord 0b0010 v0).resp = none) ∧
      (fullQueue.mbx = { pending := true, data := 0b1010 } ∧ fullQueue.resp = none ∧
        after .drain fullQueue = fullQueue.respond .planOverflow 0) := by decide
theorem witness_CstartRestartsHoming :
    after (.cstart .hour) homed =
      (homed.withCal .hour { homed.cal .hour with stepCount := 0, phase := .findField }).respond .ok 0 := by decide

/-- The hour hand in a homing phase. -/
def homingAt (ph : CalPhase) (cnt : Nat) (hall : Bool) : State :=
  inputsAt 0 hall (hourAt (seqAt 30 1 0 0 .forward) (calAt ph cnt))

theorem witness_CadvLeavesTheField :
    ((homingAt .leaveField 0 true).cal .hour).phase = .leaveField ∧
      ((homingAt .leaveField 0 true).cal .hour).stepCount = 0 ∧
      ((homingAt .leaveField 1 true).cal .hour).stepCount ≠ 0 := by decide
theorem witness_CadvFindsTheField :
    ((homingAt .findField 50 false).cal .hour).phase = .findField ∧
      (homingAt .findField 50 false).inp.hall .hour = false ∧
      ((homingAt .findField 50 false).cal .hour).stepCount ≤ vcfg.minStepsOutsideField ∧
      ((homingAt .findField 51 false).cal .hour).stepCount > vcfg.minStepsOutsideField ∧
      (homingAt .findField 65535 true).inp.hall .hour = true ∧
      ((homingAt .findField 65535 true).cal .hour).stepCount = 2 ^ vcfg.wCnt - 1 ∧
      ((homingAt .findField 65534 true).cal .hour).stepCount ≠ 2 ^ vcfg.wCnt - 1 := by decide
theorem witness_CadvMeasuresTheField :
    ((homingAt .inField 21 true).cal .hour).phase = .inField ∧ (homingAt .inField 21 true).inp.hall .hour = true ∧
      (homingAt .inField 65535 false).inp.hall .hour = false ∧
      ((homingAt .inField 65535 false).cal .hour).stepCount = 2 ^ vcfg.wCnt - 1 ∧
      ((homingAt .inField 0 false).cal .hour).stepCount ≠ 2 ^ vcfg.wCnt - 1 := by decide
theorem witness_CadvCentersAndSetsTheOrigin :
    ((homingAt .centering 0 true).cal .hour).phase = .centering ∧
      ((homingAt .centering 0 true).cal .hour).stepCount = 0 ∧
      ((homingAt .centering 1 true).cal .hour).stepCount ≠ 0 := by decide
theorem witness_CadvReturnsOneExactlyWhenCalibrated :
    ((homingAt .calibrated 0 true).cal .hour).phase = .calibrated ∧
      respWord (.cadv .hour) (homingAt .findField 65535 true) = some 0xA000 := by decide
/-- In the field, in the middle of nothing else: two positions of field, then outside. -/
def crossing : State := homingAt .inField 0 false

theorem witness_HomingCentersOnTheField :
    crossing.Inv ∧ (crossing.cal .hour).phase = .inField ∧ (crossing.cal .hour).stepCount = 0 ∧
      2 ≤ 2 ^ crossing.cfg.wCnt - 1 ∧ [crossing.inp, crossing.inp].length = 2 ∧
      (∀ inp ∈ [crossing.inp, crossing.inp], inp.hall .hour = false) ∧
      v0.inp.hall .hour = true ∧ [v0.inp].length = 2 / 2 :=
  ⟨by decide, by decide, by decide, by decide, by decide, by decide, by decide, by decide⟩
theorem witness_CalibratedIsLeftOnlyByARestart :
    (exec (.cstart .hour) homed = .next (after (.cstart .hour) homed) ∧ (homed.cal .hour).phase = .calibrated ∧
      ((after (.cstart .hour) homed).cal .hour).phase ≠ .calibrated) ∧
    (exec .bhome1100 homed = .next (after .bhome1100 homed) ∧
      ((after .bhome1100 homed).cal .hour).phase ≠ .calibrated) ∧
    (exec .drain (withWord 0b1111 homed) = .next (after .drain (withWord 0b1111 homed)) ∧
      ((withWord 0b1111 homed).cal .hour).phase = .calibrated ∧
      ((after .drain (withWord 0b1111 homed)).cal .hour).phase ≠ .calibrated) :=
  ⟨⟨rfl, by decide, by decide⟩, ⟨rfl, by decide⟩, rfl, by decide, by decide⟩

/-- The hour hand at a position with the given drift tracking. -/
def driftAt (pos : Nat) (k : Calibration) (hall : Bool) : State := inputsAt 0 hall (hourAt (seqAt pos 1 0 0 .forward) k)

theorem witness_DriftCheckWithoutCorrection_paths :
    (driftAt 3 (tracking 1699 .forward false) false).inp.hall .hour = !(tracking 1699 .forward false).trackingInField ∧
    ((driftAt 3 (calAt .calibrated 0) false).inp.hall .hour = false ∧ (calAt .calibrated 0).trackingInField = false) ∧
    (tracking 9 .backward false).enterDirection ≠ (driftAt 3 (tracking 9 .backward false) true).seqH.lastDirection ∧
    ((tracking 1 .forward true).enterDirection = (driftAt 10 (tracking 1 .forward true) true).seqH.lastDirection ∧
      (tracking 1 .forward true).ignoreNextField = true) := by decide
theorem witness_DriftCheckWithoutCorrection_thresholds :
    diff vcfg 102 111 .forward = 9 ∧ 9 < vcfg.minWidthForRecalibration ∧
    (diff vcfg 1698 13 .forward = 20 ∧ flp vcfg 20 .forward = 10 ∧ diff vcfg 13 10 (sdir vcfg 13 10) = 3 ∧
      3 < vcfg.minStepsOffForRecalibration) ∧
    (tracking 1698 .forward false).ignoreNextField = false ∧
    (driftAt 13 (tracking 1698 .forward false) true).inp.hall .hour = true := by decide
theorem witness_DriftCheckCorrectsHalfTheOffset :
    let s := driftAt 13 (tracking 1699 .forward false) true
    s.Inv ∧ 19 = diff s.cfg (s.cal .hour).enterPosition (s.seq .hour).position (s.cal .hour).enterDirection ∧
      9 = flp s.cfg 19 (s.cal .hour).enterDirection ∧ Direction.backward = sdir s.cfg (s.seq .hour).position 9 ∧
      4 = diff s.cfg (s.seq .hour).position 9 .backward ∧ s.inp.hall .hour = true ∧
      (s.cal .hour).trackingInField = true ∧ (s.cal .hour).enterDirection = (s.seq .hour).lastDirection ∧
      (s.cal .hour).ignoreNextField = false ∧ s.cfg.minWidthForRecalibration ≤ 19 ∧
      s.cfg.minStepsOffForRecalibration ≤ 4 ∧ (-2 : Int) = (s.seq .hour).plannedSteps + -((4 / 2 : Nat) : Int) ∧
      (11 : Int) = ((9 : Int) + (4 / 2 : Nat)) % s.cfg.stepsPerRev := by decide
theorem witness_RstTakesTheNodeToReset :
    (withSample 0b11111 warm).events ≠ [] ∧
      { warm with events := [{ rst := true, inputs := warm.inp, arrival := .sample 0b11111 }] }.events =
        { rst := true, inputs := warm.inp, arrival := .sample 0b11111 } :: [] := by decide
theorem witness_ResetMeetsTheInvariant : vcfg.Ok ∧ { vcfg with nPhases := 4, coilTable := waveDriveTable }.Ok := by decide
theorem witness_EveryStepKeepsTheInvariant :
    (withSample 0b10110 warm).Inv ∧
      step (withSample 0b10110 warm) = .next (stepped (withSample 0b10110 warm)) := ⟨by decide, rfl⟩
theorem witness_StepRunsTheDecodedInstruction :
    (v0.withFetchWord 32 0x0401E014).events =
      { rst := false, inputs := v0.inp, arrival := .command 0x0401E014 } :: [] ∧
    decode v0.rly.inClkPrev (Arrival.command 0x0401E014).packet = .ok (.diff 20 30 .forward) ∧
    decode v0.rly.inClkPrev (Arrival.sample 0b10001).packet = .ok (.sampleEdge 0b0001) := by decide
theorem witness_UndecodableWordsAreRefused :
    (v0.withFetchWord 32 0xF1234567).events =
      { rst := false, inputs := v0.inp, arrival := .command 0xF1234567 } :: [] ∧
    (0xF1234567 : CommandWord).toNat / 2 ^ 28 = 0xF ∧
    ((0x31000000 : CommandWord).toNat / 2 ^ 28 ≠ 0xF ∧
      ∀ row ∈ commandRows, (0x31000000 : CommandWord) &&& row.2 ≠ row.1) :=
  ⟨rfl, by decide, by decide, by simp [commandRows]⟩
theorem witness_RefusedCommandsWriteNothing :
    (Instr.flp 1706 .forward).isCommand = true ∧
      (after (.flp 1706 .forward) v0).resp = some { status := .operandRange, value := 0 } := by decide
theorem witness_HandsAreIndependent :
    Instr.hand? (.tryStep .hour) = some .hour ∧ exec (.tryStep .hour) warm = .next (after (.tryStep .hour) warm) ∧
      (withWord 0b0001 warm).cfg = warm.cfg ∧ (withWord 0b0001 warm).seq .hour = warm.seq .hour ∧
      (withWord 0b0001 warm).cal .hour = warm.cal .hour ∧ (withWord 0b0001 warm).inp = warm.inp ∧
      exec (.tryStep .hour) (withWord 0b0001 warm) = .next (after (.tryStep .hour) (withWord 0b0001 warm)) :=
  ⟨rfl, rfl, rfl, rfl, rfl, rfl, rfl⟩
theorem witness_SamplesCommuteWithUnsharedCommands :
    (Instr.tryStep .hour).isCommand = true ∧ Instr.tryStep .hour ≠ .tickp ∧ Instr.tryStep .hour ≠ .ticki ∧
      Instr.tryStep .hour ≠ .drain ∧ (Instr.sampleEdge 0b0110).isSample = true ∧
      exec (.tryStep .hour) warm = .next (after (.tryStep .hour) warm) ∧
      exec (.sampleEdge 0b0110) (after (.tryStep .hour) warm) =
        .next (after (.sampleEdge 0b0110) (after (.tryStep .hour) warm)) ∧
      exec (.sampleEdge 0b0110) warm = .next (after (.sampleEdge 0b0110) warm) ∧
      exec (.tryStep .hour) (after (.sampleEdge 0b0110) warm) =
        .next (after (.tryStep .hour) (after (.sampleEdge 0b0110) warm)) :=
  ⟨rfl, by decide, by decide, by decide, rfl, rfl, rfl, rfl, rfl⟩
theorem witness_ResponsesFitTheirFields :
    v0.Inv ∧ (Instr.flp 1 .backward).isCommand = true ∧
      exec (.flp 1 .backward) v0 = .next (after (.flp 1 .backward) v0) := ⟨by decide, rfl, rfl⟩
theorem witness_ChainSamplesReadTheNodeBefore :
    [upstream, v0, overdue][0]? = some upstream ∧ [upstream, v0, overdue][0 + 1]? = some v0 ∧
      (upstream.rly.clockLineHigh = true ∧ v0.rly.inClkPrev = false ∧ v0.rly.relaying = false) ∧
      [upstream, overdue][0 + 1]? = some overdue ∧ (overdue.rly.inClkPrev = false ∧ overdue.rly.relaying = true) ∧
      ¬ (v0.rly.clockLineHigh = true ∧ overdue.rly.inClkPrev = false) := by decide
theorem witness_DecodeInvertsEncode :
    (Instr.recal .minute 4095 4095 .forward).wellFormed = true ∧
      Instr.selectedAt true (.recal .minute 4095 4095 .forward) = true ∧
      Instr.selectedAt false (.sampleEdge 0b1111) = true ∧ Instr.selectedAt true (.sampleNoEdge true 0b1111) = true := by
  decide
theorem witness_EncodeInvertsDecode :
    decode true (.command 0x0401E014) = .ok (.diff 20 30 .forward) ∧ decode true (.busWord 0b0011) = .ok .bhome0011 ∧
      decode true (.sample 0b10001) = .ok (.sampleNoEdge true 0b0001) := by decide

end Sys2Proof.Tests
end

section
/-! PROOFS for 00_scope: the time base (00 R11, R12). `elapsed` is fixed by one congruence, `last + elapsed = now` modulo
`2^W_TIME`, and by its range; its value on `W_TIME`-bit times follows with and without a wrap of the counter. -/

namespace Sys2Proof.Machine

/-- The Euclidean remainder in `elapsed` is nonnegative, so reading it as a natural number loses nothing. -/
theorem elapsed_cast (c : Config) (now last : Nat) :
    (elapsed c now last : Int) = ((now : Int) - last) % ((2 ^ c.wTime : Nat) : Int) :=
  Int.toNat_of_nonneg (Int.emod_nonneg _ (by exact_mod_cast (Nat.two_pow_pos c.wTime).ne'))

/-- 00 R11 as a congruence: elapsed time added to `last` gives `now`, whatever the widths of the two times. -/
theorem last_add_elapsed_mod (c : Config) (now last : Nat) :
    (last + elapsed c now last) % 2 ^ c.wTime = now % 2 ^ c.wTime := by
  zify
  rw [elapsed_cast]
  simp

theorem elapsed_of_le {c : Config} {now last : Nat} (hnow : now < 2 ^ c.wTime) (hle : last ≤ now) :
    elapsed c now last = now - last := by
  have hmod : ((now : Int) - last) % ((2 ^ c.wTime : Nat) : Int) = (now : Int) - last :=
    Int.emod_eq_of_lt (by omega) (by omega)
  have hcast := elapsed_cast c now last
  omega

/-- The counter wrapped once between the two times: one period is added to the negative difference. -/
theorem elapsed_of_lt {c : Config} {now last : Nat} (hlast : last < 2 ^ c.wTime) (hlt : now < last) :
    elapsed c now last = 2 ^ c.wTime - last + now := by
  have hmod : ((now : Int) - last) % ((2 ^ c.wTime : Nat) : Int) = now - last + ((2 ^ c.wTime : Nat) : Int) := by
    rw [← Int.add_emod_right]
    exact Int.emod_eq_of_lt (by omega) (by omega)
  have hcast := elapsed_cast c now last
  omega

end Sys2Proof.Machine

open Sys2Proof.Machine

/-- Settles O24: the value by whether the counter wrapped, the range, and the congruence with `now` in range. -/
theorem elapsedTimeWraps : Obligations.ElapsedTimeWraps := by
  intro c now last hnow hlast
  refine ⟨?value, elapsed_lt c now last, ?inverse⟩
  case value =>
    split
    case isTrue hle => exact elapsed_of_le hnow hle
    case isFalse hgt => exact elapsed_of_lt hlast (Nat.lt_of_not_le hgt)
  case inverse => rw [last_add_elapsed_mod, Nat.mod_eq_of_lt hnow]

end

section
/-! PROOFS for 10_state: the state elements and their invariant (10 R23 to R45). What an instruction makes of one hand's
registers is said once for the sequencer (`SeqChange`) and once for the calibration controller (`CalChange`), both read off
`exec_cases`; the invariant's step lemma and the statements on single registers are case analyses over these two. -/

namespace Sys2Proof.Machine

/-! ### The registers of one hand under the shared updates -/

theorem Hand.eq_or_eq_other (h j : Hand) : j = h ∨ j = h.other := by
  cases h <;> cases j <;> decide

theorem Hand.forall_iff {P : Hand → Prop} : (∀ h, P h) ↔ P .hour ∧ P .minute :=
  ⟨fun hp => ⟨hp _, hp _⟩, fun ⟨hH, hM⟩ h => by cases h <;> assumption⟩

@[simp] theorem State.withHand_cfg (s : State) (h : Hand) (p : Calibration × Sequencer) :
    (s.withHand h p).cfg = s.cfg := by simp [State.withHand]
@[simp] theorem State.withHand_mbx (s : State) (h : Hand) (p : Calibration × Sequencer) :
    (s.withHand h p).mbx = s.mbx := by simp [State.withHand]
@[simp] theorem State.withHand_rly (s : State) (h : Hand) (p : Calibration × Sequencer) :
    (s.withHand h p).rly = s.rly := by simp [State.withHand]
@[simp] theorem State.withHand_inp (s : State) (h : Hand) (p : Calibration × Sequencer) :
    (s.withHand h p).inp = s.inp := by simp [State.withHand]
@[simp] theorem State.withHand_events (s : State) (h : Hand) (p : Calibration × Sequencer) :
    (s.withHand h p).events = s.events := by simp [State.withHand]
@[simp] theorem State.withHand_seq (s : State) (h : Hand) (p : Calibration × Sequencer) :
    (s.withHand h p).seq h = p.2 := by simp [State.withHand]
@[simp] theorem State.withHand_cal (s : State) (h : Hand) (p : Calibration × Sequencer) :
    (s.withHand h p).cal h = p.1 := by simp [State.withHand]
@[simp] theorem State.withHand_seq_other (s : State) (h : Hand) (p : Calibration × Sequencer) :
    (s.withHand h p).seq h.other = s.seq h.other := by simp [State.withHand]
@[simp] theorem State.withHand_cal_other (s : State) (h : Hand) (p : Calibration × Sequencer) :
    (s.withHand h p).cal h.other = s.cal h.other := by simp [State.withHand]
@[simp] theorem State.restartHoming_seq (s : State) (h : Hand) : s.restartHoming.seq h = s.seq h := by cases h <;> rfl
@[simp] theorem State.restartHoming_cal (s : State) (h : Hand) : s.restartHoming.cal h = (s.cal h).start := by
  cases h <;> rfl
@[simp] theorem State.edge_cfg (s : State) (w : BusWord) : (s.edge w).cfg = s.cfg := by
  unfold State.edge; split <;> rfl
@[simp] theorem State.edge_inp (s : State) (w : BusWord) : (s.edge w).inp = s.inp := by
  unfold State.edge; split <;> rfl
@[simp] theorem State.edge_seq (s : State) (w : BusWord) (h : Hand) : (s.edge w).seq h = s.seq h := by
  unfold State.edge; split <;> cases h <;> rfl
@[simp] theorem State.edge_cal (s : State) (w : BusWord) (h : Hand) : (s.edge w).cal h = s.cal h := by
  unfold State.edge; split <;> cases h <;> rfl

@[simp] theorem State.edge_lastReceiveTime (s : State) (w : BusWord) :
    (s.edge w).rly.lastReceiveTime = s.inp.now := by
  unfold State.edge; split <;> rfl

theorem State.edge_lastSendTime (s : State) (w : BusWord) :
    (s.edge w).rly.lastSendTime = s.rly.lastSendTime ∨ (s.edge w).rly.lastSendTime = s.inp.now := by
  rcases s.edge_cases w with ⟨_, he⟩ | ⟨_, he⟩ <;> simp [he]

theorem PlansOnly.cal_eq {s t : State} (hp : PlansOnly s t) (h : Hand) : t.cal h = s.cal h := by
  obtain ⟨_, _, _, _, rfl⟩ := hp
  cases h <;> rfl

theorem PlansOnly.seq_eq {s t : State} (hp : PlansOnly s t) (h : Hand) :
    ∃ x, (x = (s.seq h).plannedSteps ∨ (planMin s.cfg ≤ x ∧ x ≤ planMax s.cfg)) ∧
      t.seq h = { s.seq h with plannedSteps := x } := by
  obtain ⟨x, y, hx, hy, rfl⟩ := hp
  cases h
  · exact ⟨x, hx, rfl⟩
  · exact ⟨y, hy, rfl⟩

/-! ### What an instruction makes of one hand -/

/-- The instructions that restart the homing of both hands: a trigger word and the `DRAIN` that dispatches one
(43 R151, 42 R139). -/
def RestartsBoth (i : Instr) (s : State) : Prop :=
  (∃ w, trig w = true ∧ i = decodeBusWord w) ∨ (i = .drain ∧ s.mbx.pending = true ∧ trig s.mbx.data = true)

/-- `exec_cases` read at one hand: its steps owed change at most, its own instruction writes it, or homing restarts. -/
theorem exec_at_hand {i : Instr} {s t : State} (h : Hand) (ht : exec i s = .next t) :
    (t.cal h = s.cal h ∧ ∃ x, (x = (s.seq h).plannedSteps ∨ (planMin s.cfg ≤ x ∧ x ≤ planMax s.cfg)) ∧
      t.seq h = { s.seq h with plannedSteps := x }) ∨
    (Instr.hand? i = some h ∧ HandChange i s.cfg s.inp (s.cal h) (s.seq h) (t.cal h, t.seq h)) ∨
    (RestartsBoth i s ∧ t.cal h = (s.cal h).start ∧ t.seq h = s.seq h) := by
  rcases exec_cases ht with ⟨r, rfl⟩ | ⟨j, p, st, v, hj, hc, rfl⟩ | ⟨_, _, hp⟩ | ⟨w, hw, hi, rfl⟩ |
    ⟨hi, hm, v, ⟨_, u, hp, rfl⟩ | ⟨hw, rfl⟩⟩ | ⟨_, _, _, rfl⟩ | ⟨_, _, _, rfl⟩ | ⟨w, _, rfl⟩ | ⟨c, w, _, rfl⟩
  · exact .inl ⟨by cases h <;> rfl, _, .inl rfl, by cases h <;> rfl⟩
  · rcases Hand.eq_or_eq_other j h with rfl | rfl
    · exact .inr (.inl ⟨hj, by simpa using hc⟩)
    · exact .inl ⟨by simp, _, .inl rfl, by simp⟩
  · exact .inl ⟨hp.cal_eq h, hp.seq_eq h⟩
  · exact .inr (.inr ⟨.inl ⟨w, hw, hi⟩, by simp, by simp⟩)
  · exact .inl ⟨by simpa using hp.cal_eq h, by simpa using hp.seq_eq h⟩
  · exact .inr (.inr ⟨.inr ⟨hi, hm, hw⟩, by simp, by simp⟩)
  · exact .inl ⟨by cases h <;> rfl, _, .inl rfl, by cases h <;> rfl⟩
  · exact .inl ⟨by cases h <;> rfl, _, .inl rfl, by cases h <;> rfl⟩
  · exact .inl ⟨by simp, _, .inl rfl, by simp⟩
  · exact .inl ⟨by simp, _, .inl rfl, by simp⟩

/-- What an instruction that leads from `s` to `t` can make of the sequencer of hand `h`, with what is known of the
instruction where the registers alone do not show it. -/
inductive SeqChange (i : Instr) (h : Hand) (s t : State) : Prop where
  /-- Nothing but the steps owed changes, if anything. -/
  | owed (x : Int) (hx : x = (s.seq h).plannedSteps ∨ (planMin s.cfg ≤ x ∧ x ≤ planMax s.cfg))
      (he : t.seq h = { s.seq h with plannedSteps := x })
  /-- A soft correction (41 R122). -/
  | recalibrated (target off : Nat) (d : Direction)
      (he : (s.seq h).recalibrate s.cfg target off d = .ok (t.seq h))
  /-- The coils are switched off (41 R117). -/
  | deenergized (he : t.seq h = (s.seq h).deenergize)
  /-- The origin is set here (41 R120, 44 R176). -/
  | rebased (hi : i = .rsto h ∨ (i = .cadv h ∧ (t.cal h).phase = .calibrated))
      (he : t.seq h = (s.seq h).resetOrigin)
  /-- A step forward (41 R114). -/
  | forward (he : t.seq h = (s.seq h).stepForward s.cfg)
  /-- A step backward (41 R115). -/
  | backward (he : t.seq h = (s.seq h).stepBackward s.cfg)
  /-- A step forward that `TRY` takes (41 R118). -/
  | triedForward (hi : i = .tryStep h) (hr : t.resp = some { status := .ok, value := 1 })
      (hp : 0 < (s.seq h).plannedSteps)
      (he : t.seq h = { (s.seq h).stepForward s.cfg with
        plannedSteps := (s.seq h).plannedSteps - 1, lastStepTime := s.inp.now })
  /-- A step backward that `TRY` takes (41 R118). -/
  | triedBackward (hi : i = .tryStep h) (hr : t.resp = some { status := .ok, value := 1 })
      (hp : (s.seq h).plannedSteps < 0)
      (he : t.seq h = { (s.seq h).stepBackward s.cfg with
        plannedSteps := (s.seq h).plannedSteps + 1, lastStepTime := s.inp.now })

/-- The sequencer is as it was. -/
theorem SeqChange.kept {i : Instr} {h : Hand} {s t : State} (he : t.seq h = s.seq h) : SeqChange i h s t :=
  .owed _ (.inl rfl) he

theorem tryStep_seqChange {h : Hand} {s t : State} (ht : exec (.tryStep h) s = .next t) :
    SeqChange (.tryStep h) h s t := by
  cases ht
  rcases Sequencer.tryStep_cases s.cfg s.inp.now (s.seq h) with
    hc | ⟨_, _, hc⟩ | ⟨hp, _, hc⟩ | ⟨hp, _, hc⟩
  · exact .kept (by simp [hc])
  · exact .deenergized (by simp [hc])
  · exact .triedForward rfl (by simp [hc]) hp (by simp [hc])
  · exact .triedBackward rfl (by simp [hc]) hp (by simp [hc])

theorem cadvRow_seqChange {h : Hand} {s t : State} {inField : Bool}
    (hr : cadvRow s.cfg inField (s.cal h) (s.seq h) = .ok (t.cal h, t.seq h)) : SeqChange (.cadv h) h s t := by
  rcases cadvRow_cases hr with ⟨_, hp⟩ | ⟨_, _, hp⟩ | ⟨_, _, hp⟩ | ⟨_, hp⟩ | ⟨_, hp⟩ | ⟨_, _, hp⟩ | ⟨_, _, hp⟩ |
    ⟨_, _, hp⟩ <;> obtain ⟨hk, hm⟩ := Prod.mk.inj hp
  · exact .kept hm
  · exact .kept hm
  · exact .kept hm
  · exact .kept hm
  · exact .kept hm
  · exact .rebased (.inr ⟨rfl, by rw [hk]⟩) hm
  · exact .forward hm
  · exact .backward hm

/-- Every instruction changes a sequencer in one of the ways of `SeqChange`. -/
theorem exec_seqChange {i : Instr} {s t : State} (h : Hand) (ht : exec i s = .next t) : SeqChange i h s t := by
  rcases exec_at_hand h ht with ⟨_, x, hx, he⟩ | ⟨hi, hc⟩ | ⟨_, _, he⟩
  · exact .owed x hx he
  · cases i <;> simp only [Instr.hand?, Option.some.injEq, reduceCtorEq] at hi <;> subst hi
    case plan =>
      obtain ⟨x, hlo, hhi, hp⟩ := hc
      exact .owed x (.inr ⟨hlo, hhi⟩) (Prod.mk.inj hp).2
    case stepf => exact .forward (Prod.mk.inj hc).2
    case stepb => exact .backward (Prod.mk.inj hc).2
    case tryStep => exact tryStep_seqChange ht
    case rsto => exact .rebased (.inl rfl) (Prod.mk.inj hc).2
    case recal a b d => exact .recalibrated a b d hc.2
    case cstart => exact .kept (Prod.mk.inj hc).2
    case cadv => exact cadvRow_seqChange hc
    case cdrift =>
      obtain ⟨_, _, _, hm | ⟨target, off, d, hm, _⟩⟩ := driftCheck_cases hc
      · exact .kept hm
      · exact .recalibrated target off d hm
  · exact .kept he

/-- What an instruction that leads from `s` to `t` can make of the calibration controller of hand `h`. -/
inductive CalChange (i : Instr) (h : Hand) (s t : State) : Prop where
  /-- It is as it was. -/
  | kept (he : t.cal h = s.cal h)
  /-- Homing restarts (44 R171). -/
  | restarted (hi : i = .cstart h ∨ RestartsBoth i s) (he : t.cal h = (s.cal h).start)
  /-- A homing step (44 R172). -/
  | advanced (hr : cadvRow s.cfg (s.inField h) (s.cal h) (s.seq h) = .ok (t.cal h, t.seq h))
  /-- A drift check (44 R180). -/
  | checked (hr : driftCheck s.cfg (s.inField h) (s.cal h) (s.seq h) = .ok (t.cal h, t.seq h))

/-- Every instruction changes a calibration controller in one of the ways of `CalChange`. -/
theorem exec_calChange {i : Instr} {s t : State} (h : Hand) (ht : exec i s = .next t) : CalChange i h s t := by
  rcases exec_at_hand h ht with ⟨he, _⟩ | ⟨hi, hc⟩ | ⟨hi, he, _⟩
  · exact .kept he
  · cases i <;> simp only [Instr.hand?, Option.some.injEq, reduceCtorEq] at hi <;> subst hi
    case plan =>
      obtain ⟨_, _, _, hp⟩ := hc
      exact .kept (Prod.mk.inj hp).1
    case stepf => exact .kept (Prod.mk.inj hc).1
    case stepb => exact .kept (Prod.mk.inj hc).1
    case tryStep => exact .kept (Prod.mk.inj hc).1
    case rsto => exact .kept (Prod.mk.inj hc).1
    case recal => exact .kept hc.1
    case cstart => exact .restarted (.inl rfl) (Prod.mk.inj hc).1
    case cadv => exact .advanced hc
    case cdrift => exact .checked hc
  · exact .restarted (.inr hi) he

/-- No instruction writes the parameters or the inputs, and a timestamp of the relay is only ever set to `now`. -/
theorem exec_cfg_inp_relayTimes {i : Instr} {s t : State} (ht : exec i s = .next t) :
    t.cfg = s.cfg ∧ t.inp = s.inp ∧
    (t.rly.lastReceiveTime = s.rly.lastReceiveTime ∨ t.rly.lastReceiveTime = s.inp.now) ∧
    (t.rly.lastSendTime = s.rly.lastSendTime ∨ t.rly.lastSendTime = s.inp.now) := by
  rcases exec_cases ht with ⟨r, rfl⟩ | ⟨j, p, st, v, _, _, rfl⟩ | ⟨_, _, _, _, _, _, rfl⟩ | ⟨w, _, _, rfl⟩ |
    ⟨_, _, v, ⟨_, u, ⟨_, _, _, _, rfl⟩, rfl⟩ | ⟨_, rfl⟩⟩ | ⟨_, _, _, rfl⟩ | ⟨_, _, _, rfl⟩ | ⟨w, _, rfl⟩ |
    ⟨c, w, _, rfl⟩ <;> simp [State.restartHoming_eq, State.edge_lastSendTime]

/-! ### The sequencer's operations keep its invariant -/

theorem nextPhase_mem {c : Config} {p : Nat} (hp : 1 ≤ p ∧ p ≤ c.nPhases) :
    1 ≤ nextPhase c p ∧ nextPhase c p ≤ c.nPhases := by
  unfold nextPhase
  split <;> omega

theorem prevPhase_mem {c : Config} {p : Nat} (hp : 1 ≤ p ∧ p ≤ c.nPhases) :
    1 ≤ prevPhase c p ∧ prevPhase c p ≤ c.nPhases := by
  unfold prevPhase
  split <;> omega

theorem recalPosition_lt {c : Config} (hS : 0 < c.stepsPerRev) (target off : Nat) (d : Direction) :
    recalPosition c target off d < c.stepsPerRev := by
  cases d <;> exact Nat.mod_lt _ hS

theorem Sequencer.stepForward_inv {c : Config} {m : Sequencer} (hS : 0 < c.stepsPerRev) (hm : m.Inv c) :
    (m.stepForward c).Inv c := by
  obtain ⟨_, hphase, hplan, htime, _⟩ := hm
  exact ⟨Nat.mod_lt _ hS, nextPhase_mem hphase, hplan, htime, rfl⟩

theorem Sequencer.stepBackward_inv {c : Config} {m : Sequencer} (hS : 0 < c.stepsPerRev) (hm : m.Inv c) :
    (m.stepBackward c).Inv c := by
  obtain ⟨_, hphase, hplan, htime, _⟩ := hm
  exact ⟨Nat.mod_lt _ hS, prevPhase_mem hphase, hplan, htime, rfl⟩

theorem Sequencer.deenergize_inv {c : Config} {m : Sequencer} (hm : m.Inv c) : m.deenergize.Inv c := by
  obtain ⟨hpos, hphase, hplan, htime, _⟩ := hm
  exact ⟨hpos, hphase, hplan, htime, rfl⟩

theorem Sequencer.resetOrigin_inv {c : Config} {m : Sequencer} (hS : 0 < c.stepsPerRev) (hm : m.Inv c) :
    m.resetOrigin.Inv c := by
  obtain ⟨_, hphase, _, _, _⟩ := hm
  exact ⟨hS, hphase, ⟨planMin_le_zero c, planMax_nonneg c⟩, Nat.two_pow_pos _, rfl⟩

/-- Steps owed and time may take any values of their ranges. -/
theorem Sequencer.withPlanTime_inv {c : Config} {m : Sequencer} {x : Int} {now : Nat} (hm : m.Inv c)
    (hx : planMin c ≤ x ∧ x ≤ planMax c) (hnow : now < 2 ^ c.wTime) :
    { m with plannedSteps := x, lastStepTime := now }.Inv c := by
  obtain ⟨hpos, hphase, _, _, hcoil⟩ := hm
  exact ⟨hpos, hphase, hx, hnow, hcoil⟩

theorem Sequencer.recalibrate_inv {c : Config} {m m' : Sequencer} {target off : Nat} {d : Direction}
    (hS : 0 < c.stepsPerRev) (hm : m.Inv c) (hr : m.recalibrate c target off d = .ok m') : m'.Inv c := by
  obtain ⟨_, hphase, _, htime, hcoil⟩ := hm
  obtain ⟨_, _, hlo, hhi, rfl⟩ := Sequencer.recalibrate_ok hr
  exact ⟨recalPosition_lt hS target off d, hphase, ⟨hlo, hhi⟩, htime, hcoil⟩

/-- Whatever an instruction makes of a sequencer meets the sequencer's invariant again (10 R31). -/
theorem SeqChange.inv {i : Instr} {h : Hand} {s t : State} (hc : SeqChange i h s t) (hS : 0 < s.cfg.stepsPerRev)
    (hnow : s.inp.now < 2 ^ s.cfg.wTime) (hm : (s.seq h).Inv s.cfg) : (t.seq h).Inv s.cfg := by
  have hlo := planMin_le_zero s.cfg
  have hhi := planMax_nonneg s.cfg
  have ⟨_, _, hplan, htime, _⟩ := hm
  cases hc with
  | owed x hx he =>
    rw [he]
    refine Sequencer.withPlanTime_inv hm ?_ htime
    rcases hx with rfl | hx
    · exact hplan
    · exact hx
  | recalibrated target off d he => exact Sequencer.recalibrate_inv hS hm he
  | deenergized he => exact he ▸ Sequencer.deenergize_inv hm
  | rebased _ he => exact he ▸ Sequencer.resetOrigin_inv hS hm
  | forward he => exact he ▸ Sequencer.stepForward_inv hS hm
  | backward he => exact he ▸ Sequencer.stepBackward_inv hS hm
  | triedForward _ _ hp he =>
    exact he ▸ Sequencer.withPlanTime_inv (Sequencer.stepForward_inv hS hm) (by omega) hnow
  | triedBackward _ _ hp he =>
    exact he ▸ Sequencer.withPlanTime_inv (Sequencer.stepBackward_inv hS hm) (by omega) hnow

/-! ### The calibration controller's operations keep its invariant -/

theorem cadvRow_inv {g : Config} {inField : Bool} {k : Calibration} {m : Sequencer} {p : Calibration × Sequencer}
    (hg : g.minStepsOutsideField + 1 ≤ countMax g) (hk : k.Inv g) (hr : cadvRow g inField k m = .ok p) :
    p.1.Inv g := by
  obtain ⟨hcount, henter⟩ := hk
  rcases cadvRow_cases hr with ⟨_, rfl⟩ | ⟨_, _, rfl⟩ | ⟨_, _, rfl⟩ | ⟨_, rfl⟩ | ⟨_, rfl⟩ | ⟨_, _, rfl⟩ |
    ⟨_, _, rfl⟩ | ⟨_, _, rfl⟩ <;> refine ⟨?_, henter⟩ <;> simp only <;> omega

theorem driftCheck_inv {g : Config} {inField : Bool} {k : Calibration} {m : Sequencer} {p : Calibration × Sequencer}
    (hm : m.position < g.stepsPerRev) (hk : k.Inv g) (hr : driftCheck g inField k m = .ok p) : p.1.Inv g := by
  obtain ⟨_, hcount, henter, _⟩ := driftCheck_cases hr
  refine ⟨hcount ▸ hk.1, ?_⟩
  rcases henter with he | he
  · exact he ▸ hk.2
  · exact he ▸ hm

/-- Whatever an instruction makes of a controller is in the registers' ranges again (10 R34, R35). -/
theorem CalChange.inv {i : Instr} {h : Hand} {s t : State} (hc : CalChange i h s t)
    (hg : s.cfg.minStepsOutsideField + 1 ≤ countMax s.cfg) (hm : (s.seq h).position < s.cfg.stepsPerRev)
    (hk : (s.cal h).Inv s.cfg) : (t.cal h).Inv s.cfg := by
  cases hc with
  | kept he => exact he ▸ hk
  | restarted _ he => exact he ▸ ⟨Nat.zero_le _, hk.2⟩
  | advanced hr => exact cadvRow_inv hg hk hr
  | checked hr => exact driftCheck_inv hm hk hr

/-! ### The invariant of the node -/

theorem stepsPerRev_pos {c : Config} (hc : c.Ok) : 0 < c.stepsPerRev := by
  obtain ⟨⟨hS, _⟩, _⟩ := hc
  omega

theorem minStepsOutsideField_lt {c : Config} (hc : c.Ok) :
    c.minStepsOutsideField + 1 ≤ countMax c := by
  obtain ⟨_, _, _, _, _, hcnt, _⟩ := hc
  exact hcnt

/-- The invariant with its clauses on the hands' registers said of each hand. -/
theorem State.inv_iff (s : State) :
    s.Inv ↔ s.cfg.Ok ∧ (∀ h, (s.seq h).Inv s.cfg) ∧ (∀ h, (s.cal h).Inv s.cfg) ∧ s.rly.Inv s.cfg ∧
      s.inp.now < 2 ^ s.cfg.wTime := by
  rw [Hand.forall_iff, Hand.forall_iff]
  rfl

theorem Relay.Inv.of_set_now {c : Config} {r r' : Relay} {now : Nat} (hr : r.Inv c) (hnow : now < 2 ^ c.wTime)
    (hrecv : r'.lastReceiveTime = r.lastReceiveTime ∨ r'.lastReceiveTime = now)
    (hsend : r'.lastSendTime = r.lastSendTime ∨ r'.lastSendTime = now) : r'.Inv c := by
  obtain ⟨h1, h2⟩ := hr
  constructor
  · rcases hrecv with he | he <;> rwa [he]
  · rcases hsend with he | he <;> rwa [he]

theorem exec_keeps_inv {i : Instr} {s t : State} (hs : s.Inv) (ht : exec i s = .next t) : t.Inv := by
  obtain ⟨hcfg, hseq, hcal, hrly, hnow⟩ := s.inv_iff.mp hs
  obtain ⟨hc, hi, hrecv, hsend⟩ := exec_cfg_inp_relayTimes ht
  rw [State.inv_iff, hc, hi]
  refine ⟨hcfg, fun h => ?_, fun h => ?_, hrly.of_set_now hnow hrecv hsend, hnow⟩
  · exact (exec_seqChange h ht).inv (stepsPerRev_pos hcfg) hnow (hseq h)
  · exact (exec_calChange h ht).inv (minStepsOutsideField_lt hcfg) (hseq h).1 (hcal h)

theorem State.beginEvent_inv {s : State} (hs : s.Inv) (e : Event) (rest : List Event) :
    (s.beginEvent e rest).Inv := by
  obtain ⟨hcfg, hseq, hcal, hrly, _⟩ := hs
  exact ⟨hcfg, hseq, hcal, hrly, Nat.mod_lt _ (Nat.two_pow_pos _)⟩

theorem Sequencer.reset_inv {c : Config} (hc : c.Ok) : (Sequencer.reset c).Inv c := by
  have ⟨_, _, _, hphase, _⟩ := hc
  exact ⟨stepsPerRev_pos hc, hphase, ⟨planMin_le_zero c, planMax_nonneg c⟩, Nat.two_pow_pos _, rfl⟩

theorem Calibration.reset_inv {c : Config} (hc : c.Ok) : Calibration.reset.Inv c :=
  ⟨Nat.zero_le _, stepsPerRev_pos hc⟩

theorem State.resetNode_inv {s : State} (hc : s.cfg.Ok) (hnow : s.inp.now < 2 ^ s.cfg.wTime) : s.resetNode.Inv :=
  have hm := Sequencer.reset_inv hc
  have hk := Calibration.reset_inv hc
  ⟨hc, ⟨hm, hm⟩, ⟨hk, hk⟩, ⟨Nat.two_pow_pos _, Nat.two_pow_pos _⟩, hnow⟩

theorem State.resetWith_inv {c : Config} (hc : c.Ok) : (State.resetWith c).Inv :=
  State.resetNode_inv (s := State.resetWith c) hc (Nat.two_pow_pos _)

/-- The free thresholds stay in the ranges of 70 R224, whatever their values are. -/
theorem configBuilt_ok : Config.built.Ok := by
  refine ⟨by decide, by decide, by decide, by decide, ⟨?_, ?_, ?_, ?_⟩, ?_, ?_⟩
  · exact Config.freeMinStepInterval.isLt
  · exact Config.freeStandstillTimeout.isLt
  · exact Config.freeMinPulseWidth.isLt
  · exact Config.freeInterInstructionTimeout.isLt
  · exact Config.freeMinStepsOutsideField.isLt
  · exact Nat.le_add_left 2 Config.freeExtraWidth

/-! ### Coil patterns -/

/-- A legal table energizes a coil in every entry (41 R112, 70 R224). -/
theorem coilEntryOk_ne_zero {n : Nat} {p : BitVec 4} (hp : coilEntryOk n p = true) : p ≠ 0b0000 := by
  rintro rfl
  simp [coilEntryOk, coilsOn] at hp

theorem coilPattern_ne_zero {c : Config} (hc : c.Ok) {p : Nat} (hp : 1 ≤ p ∧ p ≤ c.nPhases) :
    coilPattern c p ≠ 0b0000 := by
  obtain ⟨_, _, ⟨hlen, hall⟩, _⟩ := hc
  have hlt : p - 1 < c.coilTable.length := by omega
  rw [coilPattern, List.getD_eq_getElem _ _ hlt]
  exact coilEntryOk_ne_zero (List.all_eq_true.mp hall _ (List.getElem_mem hlt))

/-- `predPosition` is the predecessor of 41 R115, `(p - 1) mod S` on integers. -/
theorem predPosition_cast {c : Config} (hS : 0 < c.stepsPerRev) (p : Nat) :
    (predPosition c p : Int) = ((p : Int) - 1) % c.stepsPerRev := by
  have hadd : ((p + (c.stepsPerRev - 1) : Nat) : Int) = (p : Int) - 1 + c.stepsPerRev := by omega
  rw [predPosition, Int.natCast_emod, hadd, Int.add_emod_right]

/-! ### The effect of a hand's instruction as a function of that hand -/

/-- What an instruction of a hand answers and makes of that hand's registers, from the parameters, the inputs and those
registers alone; an instruction of no hand leaves them. -/
def handOutcome (i : Instr) (g : Config) (inp : Inputs) (k : Calibration) (m : Sequencer) :
    Except Status (Nat × Calibration × Sequencer) :=
  match i with
  | .plan _ d => (m.plan g d).map fun m' => (0, k, m')
  | .stepf _ => .ok (0, k, m.stepForward g)
  | .stepb _ => .ok (0, k, m.stepBackward g)
  | .tryStep _ => .ok ((m.tryStep g inp.now).2.toNat, k, (m.tryStep g inp.now).1)
  | .rsto _ => .ok (0, k, m.resetOrigin)
  | .recal _ a b d => (m.recalibrate g a b d).map fun m' => (0, k, m')
  | .cstart _ => .ok (0, k.start, m)
  | .cadv h => (cadvRow g (!(inp.hall h)) k m).map fun p => (doneValue p.1, p)
  | .cdrift h => (driftCheck g (!(inp.hall h)) k m).map fun p => (0, p)
  | _ => .ok (0, k, m)

/-- The end of a hand's instruction that started in `s`: its outcome written and answered, or its refusal answered. -/
def State.finishHand (s : State) (h : Hand) : Except Status (Nat × Calibration × Sequencer) → State
  | .ok (v, p) => (s.withHand h p).respond .ok v
  | .error e => s.respond e 0

/-- An instruction of a hand is its outcome, computed from that hand and written to that hand. -/
theorem exec_eq_finishHand {i : Instr} {h : Hand} (hh : Instr.hand? i = some h) (s : State) :
    exec i s = .next (s.finishHand h (handOutcome i s.cfg s.inp (s.cal h) (s.seq h))) := by
  cases i <;> simp only [Instr.hand?, Option.some.injEq, reduceCtorEq] at hh <;> subst hh
  case plan h d =>
    simp only [exec, execPlan, State.plan, handOutcome]
    cases (s.seq h).plan s.cfg d <;> simp [State.onSeq, State.finishHand, State.withHand, Except.map]
  case recal h a b d =>
    simp only [exec, execRecal, handOutcome]
    cases (s.seq h).recalibrate s.cfg a b d <;> simp [State.onSeq, State.finishHand, State.withHand, Except.map]
  case cadv h =>
    simp only [exec, execCadv, State.inField, handOutcome]
    cases cadvRow s.cfg (!(s.inp.hall h)) (s.cal h) (s.seq h) <;> rfl
  case cdrift h =>
    simp only [exec, execCdrift, State.inField, handOutcome]
    cases driftCheck s.cfg (!(s.inp.hall h)) (s.cal h) (s.seq h) <;> rfl
  case cstart h => cases h <;> rfl
  all_goals simp [exec, execStepf, execStepb, execTry, execRsto, handOutcome, State.finishHand, State.withHand]

/-- Outside its hand an instruction's end writes the response only (10 R23). -/
theorem State.finishHand_frame (s : State) (h : Hand) (r : Except Status (Nat × Calibration × Sequencer)) :
    (s.finishHand h r).cfg = s.cfg ∧ (s.finishHand h r).seq h.other = s.seq h.other ∧
      (s.finishHand h r).cal h.other = s.cal h.other ∧ (s.finishHand h r).mbx = s.mbx ∧
      (s.finishHand h r).rly = s.rly ∧ (s.finishHand h r).inp = s.inp ∧
      (s.finishHand h r).events = s.events := by
  cases r <;> simp [State.finishHand]

/-- One outcome ends alike for its hand in two states that agree on it. -/
theorem State.finishHand_congr {s s' : State} {h : Hand} (hm : s'.seq h = s.seq h) (hk : s'.cal h = s.cal h)
    (r : Except Status (Nat × Calibration × Sequencer)) :
    (s'.finishHand h r).seq h = (s.finishHand h r).seq h ∧ (s'.finishHand h r).cal h = (s.finishHand h r).cal h ∧
      (s'.finishHand h r).resp = (s.finishHand h r).resp := by
  cases r <;> simp [State.finishHand, hm, hk]

end Sys2Proof.Machine

open Sys2Proof Sys2Proof.Machine

/-- Settles O47: the cases of a step; each instruction keeps the invariant (`exec_keeps_inv`). -/
theorem everyStepKeepsTheInvariant : Obligations.EveryStepKeepsTheInvariant := by
  intro s t hs ht
  rcases step_cases s with ⟨_, hn⟩ | ⟨e, rest, _, ⟨_, hn⟩ | ⟨_, i, _, hx⟩ | ⟨_, r, _, hn⟩⟩
  · cases hn.symm.trans ht
    exact hs
  all_goals have hb := State.beginEvent_inv hs e rest
  · cases hn.symm.trans ht
    obtain ⟨hcfg, _, _, _, hnow⟩ := hb
    exact State.resetNode_inv hcfg hnow
  · exact exec_keeps_inv hb (hx.symm.trans ht)
  · cases hn.symm.trans ht
    exact hb

/-- Settles O14, over the ways a sequencer changes. -/
theorem onlyTryAndRstoWriteTheStepTime : Obligations.OnlyTryAndRstoWriteTheStepTime := by
  intro i s t h ht
  cases exec_seqChange h ht with
  | rebased hi he => exact .inr (.inr ⟨hi, by simp [he]⟩)
  | triedForward hi hr _ he => exact .inr (.inl ⟨hi, by simp [he], hr⟩)
  | triedBackward hi hr _ he => exact .inr (.inl ⟨hi, by simp [he], hr⟩)
  | recalibrated target off d he =>
    obtain ⟨_, _, _, _, hm⟩ := Sequencer.recalibrate_ok he
    exact .inl (by simp [hm])
  | owed _ _ he | deenergized he | forward he | backward he => exact .inl (by simp [he])

/-- Settles O18: only the four stepping cases write the phase, and they write position and direction with it. -/
theorem phaseMovesOnlyWithPosition : Obligations.PhaseMovesOnlyWithPosition := by
  intro i s t h hs ht
  have hback := predPosition_cast (stepsPerRev_pos hs.1)
  cases exec_seqChange h ht with
  | forward he | triedForward _ _ _ he => exact .inr (.inl (by simp [he, succPosition]))
  | backward he | triedBackward _ _ _ he => exact .inr (.inr (by simp [he, hback]))
  | recalibrated target off d he =>
    obtain ⟨_, _, _, _, hm⟩ := Sequencer.recalibrate_ok he
    exact .inl (by simp [hm])
  | owed _ _ he | deenergized he | rebased _ he => exact .inl (by simp [he])

/-- Settles O19: the pattern of a phase in range is never `0000`. -/
theorem energizedExactlyWhenACoilIsDriven : Obligations.EnergizedExactlyWhenACoilIsDriven := by
  intro s h hs
  obtain ⟨hcfg, hseq, _⟩ := s.inv_iff.mp hs
  obtain ⟨_, hphase, _, _, hcoil⟩ := hseq h
  rw [hcoil]
  cases (s.seq h).coilsEnergized
  · simp
  · simpa using coilPattern_ne_zero hcfg hphase

/-- Settles O41: a homing step and a drift check leave the phase Calibrated where it is. -/
theorem calibratedIsLeftOnlyByARestart : Obligations.CalibratedIsLeftOnlyByARestart := by
  intro i s t h ht hcal hleft
  cases exec_calChange h ht with
  | kept he => exact absurd (he ▸ hcal) hleft
  | restarted hi _ => exact hi
  | advanced hr =>
    simp only [cadvRow, hcal, Except.ok.injEq, Prod.mk.injEq] at hr
    exact absurd (hr.1 ▸ hcal) hleft
  | checked hr =>
    obtain ⟨hphase, _⟩ := driftCheck_cases hr
    exact absurd (hphase.trans hcal) hleft

/-- Settles O52: both runs end in the same outcome, written to the same hand. -/
theorem handsAreIndependent : Obligations.HandsAreIndependent := by
  intro i h s t hh ht
  cases (exec_eq_finishHand hh s).symm.trans ht
  refine ⟨State.finishHand_frame s h _, fun s' t' hcfg hseq hcal hinp ht' => ?_⟩
  cases (exec_eq_finishHand hh s').symm.trans ht'
  rw [hcfg, hinp, hcal, hseq]
  exact State.finishHand_congr hseq hcal _

/-- Settles O44: the reset record of each hand, of the mailbox and of the relay. -/
theorem resetLeavesTheTablesValues : Obligations.ResetLeavesTheTablesValues := by
  intro c h
  refine ⟨?seq, ?cal, rfl, rfl, ?pins⟩
  case seq => cases h <;> rfl
  case cal => cases h <;> rfl
  case pins => exact (by decide : packSample false 0b0000 = 0b00000)

/-- Settles O46: the reset record meets the invariant for a legal configuration, and the built one is legal. -/
theorem resetMeetsTheInvariant : Obligations.ResetMeetsTheInvariant :=
  ⟨fun _ => State.resetWith_inv, State.resetWith_inv configBuilt_ok⟩

end

section
/-! PROOFS for 20_memory: the state shared with the edge handler and the pins (20 R62 to R75), and one event (R66, R69,
R76). What an instruction can do to mailbox and relay is said once (`BusChange`). R70 rests on two facts: an unshared
command neither reads nor writes these two (`exec_withBus`), and a sample reads and writes nothing else but the inputs
(`exec_sample_withBus`). -/

namespace Sys2Proof.Machine

/-! ### Mailbox and relay under an instruction -/

theorem PlansOnly.mbx_eq {s t : State} (hp : PlansOnly s t) : t.mbx = s.mbx := by
  obtain ⟨_, _, _, _, rfl⟩ := hp
  rfl

theorem PlansOnly.rly_eq {s t : State} (hp : PlansOnly s t) : t.rly = s.rly := by
  obtain ⟨_, _, _, _, rfl⟩ := hp
  rfl

/-- What an instruction that leads from `s` to `t` can make of the mailbox and the relay, with the instruction and the
guard wherever it writes one of them. -/
inductive BusChange (i : Instr) (s t : State) : Prop where
  /-- Both are as they were. -/
  | kept (hm : t.mbx = s.mbx) (hr : t.rly = s.rly)
  /-- The word is taken out (42 R139). -/
  | drained (hi : i = .drain) (hp : s.mbx.pending = true) (hm : t.mbx = { s.mbx with pending := false })
      (hr : t.rly = s.rly)
  /-- The outbound pulse ends (42 R137). -/
  | pulseEnded (hi : i = .tickp) (hc : s.rly.clockLineHigh = true)
      (he : s.cfg.minPulseWidth < elapsed s.cfg s.inp.now s.rly.lastSendTime) (hm : t.mbx = s.mbx)
      (hr : t.rly = { s.rly with clockLineHigh := false })
  /-- The relay is released (42 R138). -/
  | released (hi : i = .ticki) (hrel : s.rly.relaying = true)
      (he : s.cfg.interInstructionTimeout < elapsed s.cfg s.inp.now s.rly.lastReceiveTime) (hm : t.mbx = s.mbx)
      (hr : t.rly = { s.rly with relaying := false, outData := 0b0000 })
  /-- An edge while relaying forwards its word (42 R133). -/
  | forwarded (w : BusWord) (hi : i = .sampleEdge w) (hrel : s.rly.relaying = true) (hm : t.mbx = s.mbx)
      (hr : t.rly = { s.rly with
        outData := w, clockLineHigh := true, lastSendTime := s.inp.now, lastReceiveTime := s.inp.now
        inClkPrev := true })
  /-- An edge while not relaying latches its word (42 R133). -/
  | latched (w : BusWord) (hi : i = .sampleEdge w) (hrel : s.rly.relaying = false)
      (hm : t.mbx = { data := w, pending := true })
      (hr : t.rly = { s.rly with relaying := true, lastReceiveTime := s.inp.now, inClkPrev := true })
  /-- A sample without an edge sees the clock level (42 R131). -/
  | clockSeen (c : Bool) (w : BusWord) (hi : i = .sampleNoEdge c w) (hm : t.mbx = s.mbx)
      (hr : t.rly = { s.rly with inClkPrev := c })

/-- Every instruction changes mailbox and relay in one of the ways of `BusChange`. -/
theorem exec_busChange {i : Instr} {s t : State} (ht : exec i s = .next t) : BusChange i s t := by
  rcases exec_cases ht with ⟨r, rfl⟩ | ⟨j, p, st, v, _, _, rfl⟩ | ⟨_, _, hp⟩ | ⟨w, _, _, rfl⟩ |
    ⟨hi, hp, v, ⟨_, u, hu, rfl⟩ | ⟨_, rfl⟩⟩ | ⟨hi, hc, he, rfl⟩ | ⟨hi, hrel, he, rfl⟩ | ⟨w, hi, rfl⟩ |
    ⟨c, w, hi, rfl⟩
  · exact .kept rfl rfl
  · exact .kept (by simp) (by simp)
  · exact .kept hp.mbx_eq hp.rly_eq
  · exact .kept rfl rfl
  · exact .drained hi hp (by simp [hu.mbx_eq]) (by simp [hu.rly_eq])
  · exact .drained hi hp rfl rfl
  · exact .pulseEnded hi hc he rfl rfl
  · exact .released hi hrel he rfl rfl
  · rcases s.edge_cases w with ⟨hrel, he⟩ | ⟨hrel, he⟩
    · exact .forwarded w hi hrel (by simp [he]) (by simp [he])
    · exact .latched w hi hrel (by simp [he]) (by simp [he])
  · exact .clockSeen c w hi rfl rfl

/-! ### The coil pins -/

theorem Sequencer.recalibrate_coil {c : Config} {target off : Nat} {d : Direction} {m m' : Sequencer}
    (hr : m.recalibrate c target off d = .ok m') : m'.coil = m.coil := by
  obtain ⟨_, _, _, _, rfl⟩ := Sequencer.recalibrate_ok hr
  rfl

/-- 20 R75 for the coils of one hand: its own stepping and switching instructions write them, every other holds them. -/
theorem exec_coil {i : Instr} {s t : State} (h : Hand) (ht : exec i s = .next t) :
    (t.seq h).coil = (s.seq h).coil ∨ i = .stepf h ∨ i = .stepb h ∨ i = .tryStep h ∨ i = .rsto h ∨ i = .cadv h := by
  rcases exec_at_hand h ht with ⟨_, x, _, he⟩ | ⟨hi, hc⟩ | ⟨_, _, he⟩
  · exact .inl (by rw [he])
  · cases i <;> simp only [Instr.hand?, Option.some.injEq, reduceCtorEq] at hi <;> subst hi
    case plan =>
      obtain ⟨x, _, _, hp⟩ := hc
      exact .inl (by rw [(Prod.mk.inj hp).2])
    case recal => exact .inl (Sequencer.recalibrate_coil hc.2)
    case cstart => exact .inl (by rw [(Prod.mk.inj hc).2])
    case cdrift =>
      obtain ⟨_, _, _, hm | ⟨_, _, _, hm, _⟩⟩ := driftCheck_cases hc
      · exact .inl (congrArg Sequencer.coil hm)
      · exact .inl (Sequencer.recalibrate_coil hm)
    all_goals simp
  · exact .inl (by rw [he])

/-! ### The state the edge handler shares, exchanged -/

/-- `s` with mailbox and relay as given: all that the edge handler writes (20 R70). -/
def State.withBus (s : State) (b : Mailbox) (r : Relay) : State := { s with mbx := b, rly := r }

section
variable (s : State) (b : Mailbox) (r : Relay)

@[simp] theorem State.withBus_cfg : (s.withBus b r).cfg = s.cfg := rfl
@[simp] theorem State.withBus_inp : (s.withBus b r).inp = s.inp := rfl
@[simp] theorem State.withBus_mbx : (s.withBus b r).mbx = b := rfl
@[simp] theorem State.withBus_rly : (s.withBus b r).rly = r := rfl
@[simp] theorem State.withBus_seq (h : Hand) : (s.withBus b r).seq h = s.seq h := by cases h <;> rfl
@[simp] theorem State.withBus_cal (h : Hand) : (s.withBus b r).cal h = s.cal h := by cases h <;> rfl
@[simp] theorem State.withBus_respond (st : Status) (v : Nat) :
    (s.withBus b r).respond st v = (s.respond st v).withBus b r := rfl

theorem State.withBus_finishHand (h : Hand) (o : Except Status (Nat × Calibration × Sequencer)) :
    (s.withBus b r).finishHand h o = (s.finishHand h o).withBus b r := by
  cases o
  · rfl
  · cases h <;> rfl

end

/-- A command besides `TICKP`, `TICKI` and `DRAIN` runs the same with any mailbox and relay, and leaves them. -/
theorem exec_withBus {i : Instr} {s t : State} (b : Mailbox) (r : Relay) (hcmd : i.isCommand = true)
    (htickp : i ≠ .tickp) (hticki : i ≠ .ticki) (hdrain : i ≠ .drain) (ht : exec i s = .next t) :
    exec i (s.withBus b r) = .next (t.withBus b r) := by
  cases hh : Instr.hand? i with
  | some h =>
    cases (exec_eq_finishHand hh s).symm.trans ht
    simpa [State.withBus_finishHand] using exec_eq_finishHand hh (s.withBus b r)
  | none =>
    cases i <;> simp only [Instr.hand?, Instr.isCommand, Bool.false_eq_true, ne_eq, not_true_eq_false, reduceCtorEq]
      at hh hcmd htickp hticki hdrain
    case diff =>
      simp only [exec, execDiff] at ht
      split_ifs at ht with hin <;> cases ht <;> simp [exec, execDiff, hin]
    case flp =>
      simp only [exec, execFlp] at ht
      split_ifs at ht with hin <;> cases ht <;> simp [exec, execFlp, hin]
    case sdir =>
      simp only [exec, execSdir] at ht
      split_ifs at ht with hin <;> cases ht <;> simp [exec, execSdir, hin]

/-- A sample depends on inputs, mailbox and relay only, and writes the last two only. -/
theorem exec_sample_withBus {j : Instr} {s s' t : State} (hj : j.isSample = true) (hs : exec j s = .next s')
    (hinp : t.inp = s.inp) (hmbx : t.mbx = s.mbx) (hrly : t.rly = s.rly) :
    exec j t = .next (t.withBus s'.mbx s'.rly) := by
  cases j <;> simp only [Instr.isSample, Bool.false_eq_true] at hj
  case sampleEdge w =>
    cases hs
    simp only [exec, execSampleEdge, State.edge, hrly]
    split <;> simp [State.withBus, State.seeClk, hmbx, hinp]
  case sampleNoEdge c w =>
    cases hs
    simp [exec, execSampleNoEdge, State.withBus, State.seeClk, hmbx, hrly]

/-! ### One event -/

theorem step_of_decode {s : State} {e : Event} {rest : List Event} {i : Instr} (hev : s.events = e :: rest)
    (hrst : e.rst = false) (hi : decode s.rly.inClkPrev e.arrival.packet = .ok i) :
    step s = exec i (s.beginEvent e rest) := by
  simp [step, hev, hrst, hi]

end Sys2Proof.Machine

open Sys2Proof Sys2Proof.Machine

/-- Settles O28: of the ways mailbox and relay change, only latching writes a word, and it needs `relaying` false. -/
theorem relayingProtectsTheMailbox : Obligations.RelayingProtectsTheMailbox := by
  intro i s t ht hrel
  cases exec_busChange ht with
  | drained _ _ hm => simp [hm]
  | latched _ _ hidle => simp [hidle] at hrel
  | kept hm | pulseEnded _ _ _ hm | released _ _ _ hm | forwarded _ _ _ hm | clockSeen _ _ _ hm => simp [hm]

/-- Settles O30: the bus pins over the ways the relay changes, the coils by `exec_coil`. -/
theorem outputPinsHoldTheirLevel : Obligations.OutputPinsHoldTheirLevel := by
  intro i s t ht
  rw [← and_assoc]
  refine ⟨?_, fun h => exec_coil h ht⟩
  cases exec_busChange ht with
  | pulseEnded hi _ _ _ hr => exact ⟨.inl (by rw [hr]), .inr (.inr hi)⟩
  | released hi _ _ _ hr => exact ⟨.inr (.inr hi), .inl (by simp [State.outClk, hr])⟩
  | forwarded w hi hrel => exact ⟨.inr (.inl ⟨w, hi, hrel⟩), .inr (.inl ⟨w, hi, hrel⟩)⟩
  | kept _ hr | drained _ _ _ hr | latched _ _ _ _ hr | clockSeen _ _ _ _ hr => simp [State.outClk, hr]

/-- Settles O53: both orders give the command's state with the mailbox and the relay of the sample. -/
theorem samplesCommuteWithUnsharedCommands : Obligations.SamplesCommuteWithUnsharedCommands := by
  intro i j s t u t' u' hcmd htickp hticki hdrain hj hst htu hst' htu'
  have hcommand := fun b r => exec_withBus b r hcmd htickp hticki hdrain hst
  have hframe : t = t.withBus s.mbx s.rly := Host.Outcome.next.inj (hst.symm.trans (hcommand s.mbx s.rly))
  have hmbx : t.mbx = s.mbx := by rw [hframe, State.withBus_mbx]
  have hrly : t.rly = s.rly := by rw [hframe, State.withBus_rly]
  have hinp := (exec_cfg_inp_relayTimes hst).2.1
  have hu : u = t.withBus t'.mbx t'.rly := Host.Outcome.next.inj <| htu.symm.trans <|
    exec_sample_withBus hj hst' hinp hmbx hrly
  have ht' : t' = s.withBus t'.mbx t'.rly := Host.Outcome.next.inj <| hst'.symm.trans <|
    exec_sample_withBus hj hst' rfl rfl rfl
  rw [ht', hcommand] at htu'
  exact hu.trans (Host.Outcome.next.inj htu')

/-- Settles O48: no `rst`, so the decoded instruction runs in the begun event. -/
theorem stepRunsTheDecodedInstruction : Obligations.StepRunsTheDecodedInstruction :=
  fun _ _ _ _ _ hev hi => step_of_decode hev rfl hi

end

section
/-! PROOFS for 30_encoding: the packet formats (30 R80 to R92) and the response word (R85). A command word is the sum of
its fields, so encoding and decoding meet at the field tuple: `decode_encodeFields` and `encodeFields_of_fields`. The
`match`/`mask` table is one row for each `op`, built from the fields that `op` leaves unused (`commandRows_eq`); a mask
keeps or clears each field whole, so a match speaks of the same fields (`matches_row_iff`). -/

namespace Sys2Proof.Machine

open Sys2Proof.Laws.FieldLayout (encodeFields_layout handBit_lt dirBit_lt)

/-! ### Fields of a command word -/

theorem opField_lt (w : CommandWord) : opField w < 16 := by
  have := w.isLt
  unfold opField
  omega

theorem hField_lt (w : CommandWord) : hField w < 2 := Nat.mod_lt _ (by decide)
theorem dField_lt (w : CommandWord) : dField w < 2 := Nat.mod_lt _ (by decide)
theorem rsvField_lt (w : CommandWord) : rsvField w < 4 := Nat.mod_lt _ (by decide)
theorem bField_lt (w : CommandWord) : bField w < 2 ^ 12 := Nat.mod_lt _ (by decide)
theorem aField_lt (w : CommandWord) : aField w < 2 ^ 12 := Nat.mod_lt _ (by decide)

/-- A word with `rsv` zero is `enc` of its fields (30 R92). -/
theorem encodeFields_of_fields {w : CommandWord} (hr : rsvField w = 0) :
    encodeFields (opField w) (hField w) (dField w) (bField w) (aField w) = .command w := by
  refine congrArg Packet.command (BitVec.eq_of_toNat_eq ?_)
  have := w.isLt
  unfold rsvField at hr
  unfold opField hField dField bField aField
  rw [BitVec.toNat_ofNat, Nat.mod_eq_of_lt (by omega)]
  omega

@[simp] theorem handOf_handBit (h : Hand) : handOf (handBit h) = h := by cases h <;> rfl
@[simp] theorem dirOf_dirBit (d : Direction) : dirOf (dirBit d) = d := by cases d <;> rfl

theorem handBit_handOf {n : Nat} (hn : n < 2) : handBit (handOf n) = n := by
  interval_cases n <;> rfl

theorem dirBit_dirOf {n : Nat} (hn : n < 2) : dirBit (dirOf n) = n := by
  interval_cases n <;> rfl

/-! ### Decoding by fields -/

@[simp] theorem ifZero_eq_ok {n : Nat} {i j : Instr} : ifZero n i = .ok j ↔ n = 0 ∧ i = j := by
  unfold ifZero
  split_ifs with hn <;> simp [hn]

/-- A row of the operation map decodes, or it refuses with `ReservedBits` (30 R88). -/
theorem ifZero_cases (n : Nat) (i : Instr) : ifZero n i = .ok i ∨ ifZero n i = .error .reservedBits := by
  unfold ifZero
  split_ifs <;> simp

theorem decodeCommand_eq_ok {w : CommandWord} {i : Instr} :
    decodeCommand w = .ok i ↔ opField w ≠ 0xF ∧ rsvField w = 0 ∧
      decodeOp (opField w) (hField w) (dField w) (bField w) (aField w) = .ok i := by
  unfold decodeCommand
  split_ifs with hop hrsv <;> simp_all

/-- Where the fields are in range, decoding `enc` of them reads them back. -/
theorem decode_encodeFields (prev : Bool) {op h d b a : Nat} (hop : op < 15) (hh : h < 2) (hd : d < 2)
    (hb : b < 2 ^ 12) (ha : a < 2 ^ 12) : decode prev (encodeFields op h d b a) = decodeOp op h d b a := by
  obtain ⟨w, hw, rfl, rfl, rfl, hrsv, rfl, rfl⟩ := encodeFields_layout op h d b a (by omega) hh hd hb ha
  simp [hw, decode, decodeCommand, hrsv, Nat.ne_of_lt hop]

/-- An `op` of the operation map refuses for unused fields only, never as illegal (30 R88, R89). -/
theorem decodeOp_ok_or_reservedBits {op : Nat} (hop : op < 15) (h d b a : Nat) :
    (∃ i, decodeOp op h d b a = .ok i) ∨ decodeOp op h d b a = .error .reservedBits := by
  interval_cases op <;> exact (ifZero_cases _ _).imp_left fun hok => ⟨_, hok⟩

theorem decodeCommand_ok_or_reservedBits {w : CommandWord} (hop : opField w ≠ 0xF) :
    (∃ i, decodeCommand w = .ok i) ∨ decodeCommand w = .error .reservedBits := by
  have hlt : opField w < 15 := Nat.lt_of_le_of_ne (Nat.le_of_lt_succ (opField_lt w)) hop
  unfold decodeCommand
  rw [if_neg hop]
  split_ifs
  · exact .inr rfl
  · exact decodeOp_ok_or_reservedBits hlt ..

/-- A well-formed command is read back from its own row of the operation map (30 R86). -/
theorem decode_encode_of_isCommand (prev : Bool) {i : Instr} (hc : i.isCommand = true) (hw : i.wellFormed = true) :
    decode prev (encode i) = .ok i := by
  cases i <;> simp only [Instr.isCommand, Bool.false_eq_true] at hc
  all_goals
    simp only [Instr.wellFormed, fits12, Nat.reducePow, Bool.and_eq_true, decide_eq_true_eq] at hw
    simp [encode, decode_encodeFields, handBit_lt, dirBit_lt, hw, decodeOp, -Order.lt_two_iff]

/-- What a row of the operation map decodes to has the row's fields again: the used ones as operands, the unused ones
zero (30 R86 to R88). -/
theorem encode_of_decodeOp {op h d b a : Nat} {i : Instr} (hh : h < 2) (hd : d < 2) (hb : b < 2 ^ 12)
    (ha : a < 2 ^ 12) (hi : decodeOp op h d b a = .ok i) :
    encode i = encodeFields op h d b a ∧ i.wellFormed = true ∧ ∀ prev, Instr.selectedAt prev i = true := by
  unfold decodeOp at hi
  split at hi
  case h_16 => cases hi
  all_goals
    obtain ⟨hz, rfl⟩ := ifZero_eq_ok.mp hi
    simp_all [encode, handBit_handOf, dirBit_dirOf, Instr.wellFormed, fits12, Instr.selectedAt, -Order.lt_two_iff]

/-! ### Bus words and pin samples -/

theorem encode_decodeBusWord (w : BusWord) :
    encode (decodeBusWord w) = .busWord w ∧ (decodeBusWord w).wellFormed = true ∧
      ∀ prev, Instr.selectedAt prev (decodeBusWord w) = true := by
  revert w
  decide

@[simp] theorem sampleClk_packSample (c : Bool) (w : BusWord) : sampleClk (packSample c w) = c := by
  revert c w
  decide

@[simp] theorem sampleData_packSample (c : Bool) (w : BusWord) : sampleData (packSample c w) = w := by
  revert c w
  decide

@[simp] theorem packSample_sampleClk_sampleData (v : PinSample) : packSample (sampleClk v) (sampleData v) = v := by
  revert v
  decide

/-- A sample decodes to the row that the edge detector selects, with the sample's own clock and data (42 R131). -/
theorem encode_decodeSample (prev : Bool) (v : PinSample) :
    encode (decodeSample prev v) = .sample v ∧ (decodeSample prev v).wellFormed = true ∧
      Instr.selectedAt prev (decodeSample prev v) = true := by
  have hv := packSample_sampleClk_sampleData v
  unfold decodeSample
  split_ifs with hedge
  · obtain ⟨hclk, hprev⟩ := Bool.and_eq_true_iff.mp hedge
    rw [hclk] at hv
    exact ⟨congrArg Packet.sample hv, rfl, hprev⟩
  · exact ⟨congrArg Packet.sample hv, rfl, (Bool.not_eq_true' _).mpr (Bool.eq_false_of_not_eq_true hedge)⟩

/-! ### The `match`/`mask` table -/

/-- Which of the fields `h`, `d`, `b`, `a` an operation leaves unused (30 R86). -/
structure Unused where
  h : Bool
  d : Bool
  b : Bool
  a : Bool

/-- The fields that the operation `op` leaves unused (30 R86). -/
def unusedOf : Nat → Unused
  | 0x0 => ⟨true, false, false, false⟩
  | 0x1 => ⟨true, false, true, false⟩
  | 0x2 => ⟨true, true, false, false⟩
  | 0x4 => ⟨false, false, true, true⟩
  | 0x9 => ⟨false, false, false, false⟩
  | 0x3 | 0xA | 0xB => ⟨true, true, true, true⟩
  | _ => ⟨false, true, true, true⟩

/-- The unused fields are zero, as 30 R88 asks. -/
def Unused.Zero (u : Unused) (h d b a : Nat) : Prop :=
  (u.h = true → h = 0) ∧ (u.d = true → d = 0) ∧ (u.b = true → b = 0) ∧ (u.a = true → a = 0)

theorem exists_decodeOp_eq_ok {op : Nat} (hop : op < 15) (h d b a : Nat) :
    (∃ i, decodeOp op h d b a = .ok i) ↔ (unusedOf op).Zero h d b a := by
  interval_cases op <;> simp [decodeOp, unusedOf, Unused.Zero, and_assoc]

/-- The `mask` over a field of `n` bits: all of it, or none. -/
def fieldMask (n : Nat) (unused : Bool) : Nat := if unused then 2 ^ n - 1 else 0

/-- The `mask` of a row: `op`, `rsv` and the unused fields (30 R88). -/
def rowMask (u : Unused) : CommandWord :=
  BitVec.ofNat 32 (fieldMask 4 true * 2 ^ 28 + fieldMask 1 u.h * 2 ^ 27 + fieldMask 1 u.d * 2 ^ 26 +
    fieldMask 2 true * 2 ^ 24 + fieldMask 12 u.b * 2 ^ 12 + fieldMask 12 u.a)

/-- The `match` of a row: its `op`, the other fields zero (30 R88). -/
def rowMatch (op : Nat) : CommandWord := BitVec.ofNat 32 (op * 2 ^ 28)

theorem commandRows_eq : commandRows = (List.range 15).map fun op => (rowMatch op, rowMask (unusedOf op)) := by
  decide

theorem rowMask_fields (u : Unused) :
    opField (rowMask u) = fieldMask 4 true ∧ hField (rowMask u) = fieldMask 1 u.h ∧
      dField (rowMask u) = fieldMask 1 u.d ∧ rsvField (rowMask u) = fieldMask 2 true ∧
      bField (rowMask u) = fieldMask 12 u.b ∧ aField (rowMask u) = fieldMask 12 u.a := by
  obtain ⟨h, d, b, a⟩ := u
  revert h d b a
  decide

theorem rowMatch_fields {op : Nat} (hop : op < 15) :
    opField (rowMatch op) = op ∧ hField (rowMatch op) = 0 ∧ dField (rowMatch op) = 0 ∧
      rsvField (rowMatch op) = 0 ∧ bField (rowMatch op) = 0 ∧ aField (rowMatch op) = 0 := by
  revert op
  decide

theorem eq_iff_fields (w v : CommandWord) :
    w = v ↔ opField w = opField v ∧ hField w = hField v ∧ dField w = dField v ∧ rsvField w = rsvField v ∧
      bField w = bField v ∧ aField w = aField v := by
  have hw := w.isLt
  have hv := v.isLt
  rw [← BitVec.toNat_inj]
  unfold opField hField dField rsvField bField aField
  omega

/-- A bitwise `and` acts on each field of its own. -/
theorem and_fields (w v : CommandWord) :
    opField (w &&& v) = opField w &&& opField v ∧ hField (w &&& v) = hField w &&& hField v ∧
      dField (w &&& v) = dField w &&& dField v ∧ rsvField (w &&& v) = rsvField w &&& rsvField v ∧
      bField (w &&& v) = bField w &&& bField v ∧ aField (w &&& v) = aField w &&& aField v := by
  have hbit := fun m n : Nat => Nat.and_mod_two_pow (a := m) (b := n) (n := 1)
  have hrsv := fun m n : Nat => Nat.and_mod_two_pow (a := m) (b := n) (n := 2)
  simp only [Nat.reducePow] at hbit hrsv
  unfold opField hField dField rsvField bField aField
  simp only [BitVec.toNat_and, Nat.and_div_two_pow, Nat.and_mod_two_pow, hbit, hrsv, and_self]

theorem and_fieldMask_eq_zero {n x : Nat} (hx : x < 2 ^ n) (u : Bool) :
    x &&& fieldMask n u = 0 ↔ (u = true → x = 0) := by
  cases u <;> simp [fieldMask, Nat.and_two_pow_sub_one_of_lt_two_pow hx]

/-- A word matches the row of `op` exactly when it has that `op`, `rsv` zero and the row's unused fields zero. -/
theorem matches_row_iff {op : Nat} (hop : op < 15) (w : CommandWord) :
    w &&& rowMask (unusedOf op) = rowMatch op ↔
      op = opField w ∧ rsvField w = 0 ∧ (unusedOf op).Zero (hField w) (dField w) (bField w) (aField w) := by
  obtain ⟨mop, mh, md, mrsv, mb, ma⟩ := rowMask_fields (unusedOf op)
  obtain ⟨rop, rh, rd, rrsv, rb, ra⟩ := rowMatch_fields hop
  obtain ⟨aop, ah, ad, arsv, ab, aa⟩ := and_fields w (rowMask (unusedOf op))
  rw [eq_iff_fields, aop, ah, ad, arsv, ab, aa, mop, mh, md, mrsv, mb, ma, rop, rh, rd, rrsv, rb, ra,
    and_fieldMask_eq_zero (hField_lt w), and_fieldMask_eq_zero (dField_lt w), and_fieldMask_eq_zero (rsvField_lt w),
    and_fieldMask_eq_zero (bField_lt w), and_fieldMask_eq_zero (aField_lt w), fieldMask, if_pos rfl,
    Nat.and_two_pow_sub_one_of_lt_two_pow (opField_lt w)]
  constructor
  · rintro ⟨hw, hh, hd, hrsv, hb, ha⟩
    exact ⟨hw.symm, hrsv rfl, hh, hd, hb, ha⟩
  · rintro ⟨hw, hrsv, hh, hd, hb, ha⟩
    exact ⟨hw.symm, hh, hd, fun _ => hrsv, hb, ha⟩

/-- Both sides say: an `op` of the operation map, `rsv` zero, and the fields unused by that `op` zero. -/
theorem exists_decodeCommand_iff_row (w : CommandWord) :
    (∃ i, decodeCommand w = .ok i) ↔ ∃ row ∈ commandRows, w &&& row.2 = row.1 := by
  have hlt := opField_lt w
  calc (∃ i, decodeCommand w = .ok i)
    _ ↔ opField w < 15 ∧ rsvField w = 0 ∧
        (unusedOf (opField w)).Zero (hField w) (dField w) (bField w) (aField w) := by
      simp only [decodeCommand_eq_ok, exists_and_left]
      constructor
      · rintro ⟨hop, hrsv, hi⟩
        exact ⟨by omega, hrsv, (exists_decodeOp_eq_ok (by omega) ..).mp hi⟩
      · rintro ⟨hop, hrsv, hz⟩
        exact ⟨by omega, hrsv, (exists_decodeOp_eq_ok hop ..).mpr hz⟩
    _ ↔ ∃ op < 15, w &&& rowMask (unusedOf op) = rowMatch op := by
      constructor
      · rintro ⟨hop, hz⟩
        exact ⟨_, hop, (matches_row_iff hop w).mpr ⟨rfl, hz⟩⟩
      · rintro ⟨op, hop, hrow⟩
        obtain ⟨rfl, hz⟩ := (matches_row_iff hop w).mp hrow
        exact ⟨hop, hz⟩
    _ ↔ ∃ row ∈ commandRows, w &&& row.2 = row.1 := by simp [commandRows_eq]

/-! ### A word that decodes to nothing -/

/-- A word that does not decode is refused in the begun event, its code answered and nothing else written (60 R192). -/
theorem step_of_decode_error {s : State} {e : Event} {rest : List Event} {r : DecodeError}
    (hev : s.events = e :: rest) (hrst : e.rst = false) (hr : decode s.rly.inClkPrev e.arrival.packet = .error r) :
    step s = .next ((s.beginEvent e rest).respond (statusOf r) 0) := by
  simp [step, hev, hrst, hr]

/-! ### Responses -/

theorem Status.code_lt (st : Status) : st.code < 8 := by cases st <;> decide

/-- The fields of a response word whose value fits 13 bits (30 R85). -/
theorem Response.word_fields {r : Response} (hv : r.value < 2 ^ 13) :
    r.word.toNat / 2 ^ 13 = r.status.code ∧ r.word.toNat % 2 ^ 13 = r.value := by
  have hc := r.status.code_lt
  rw [Response.word, BitVec.toNat_ofNat, Nat.mod_eq_of_lt (by omega)]
  omega

theorem State.answer_response {s t : State} {v : Nat} {r : Except Status State} (ht : s.answer v r = .next t) :
    ∃ q, t.resp = some q ∧ q.value ≤ v := by
  rcases State.answer_eq_next.mp ht with ⟨u, _, rfl⟩ | ⟨e, _, rfl⟩ <;> simp

theorem diff_lt {c : Config} {p q : Nat} (hp : p < c.stepsPerRev) (hq : q < c.stepsPerRev) (d : Direction) :
    diff c p q d < c.stepsPerRev := by
  unfold diff
  cases d <;> dsimp only <;> split <;> omega

theorem flp_le {c : Config} {width : Nat} (hw : width ≤ c.stepsPerRev) (d : Direction) :
    flp c width d ≤ c.stepsPerRev := by
  unfold flp
  cases d <;> dsimp only <;> omega

theorem dirValue_le_one (d : Direction) : dirValue d ≤ 1 := by cases d <;> decide

theorem doneValue_le_one (c : Calibration) : doneValue c ≤ 1 := by
  unfold doneValue
  split <;> omega

theorem drainValue_lt (b : Mailbox) : drainValue b < 32 := by
  have hd := b.data.isLt
  have hp := Bool.toNat_le b.pending
  unfold drainValue
  omega

/-- Every command is an answer, of a value below `2^13` (30 R85). -/
theorem exec_eq_answer {i : Instr} {s : State} (hS : s.cfg.stepsPerRev < 2 ^ 13) (hc : i.isCommand = true) :
    ∃ v r, v < 2 ^ 13 ∧ exec i s = s.answer v r := by
  cases i <;> simp only [Instr.isCommand, Bool.false_eq_true] at hc
  case diff a b d =>
    by_cases hin : (inRing s.cfg a && inRing s.cfg b) = true
    · obtain ⟨ha, hb⟩ := Bool.and_eq_true_iff.mp hin
      exact ⟨_, _, (diff_lt (of_decide_eq_true ha) (of_decide_eq_true hb) d).trans hS, if_pos hin⟩
    · exact ⟨0, _, by decide, if_neg hin⟩
  case flp a d =>
    by_cases hin : widthInRange s.cfg a = true
    · exact ⟨_, _, (flp_le (of_decide_eq_true hin) d).trans_lt hS, if_pos hin⟩
    · exact ⟨0, _, by decide, if_neg hin⟩
  case sdir a b =>
    by_cases hin : (inRing s.cfg a && inRing s.cfg b) = true
    · exact ⟨_, _, (dirValue_le_one _).trans_lt (by decide), if_pos hin⟩
    · exact ⟨0, _, by decide, if_neg hin⟩
  case cadv h =>
    simp only [exec, execCadv]
    split
    · exact ⟨_, _, (doneValue_le_one _).trans_lt (by decide), rfl⟩
    · exact ⟨0, _, by decide, rfl⟩
  case cdrift h =>
    simp only [exec, execCdrift]
    split <;> exact ⟨0, _, by decide, rfl⟩
  case tryStep h => exact ⟨_, .ok _, (Bool.toNat_le _).trans_lt (by decide), rfl⟩
  case drain => exact ⟨_, _, (drainValue_lt _).trans (by decide), rfl⟩
  case plan | recal => exact ⟨0, _, by decide, rfl⟩
  all_goals exact ⟨0, .ok _, by decide, rfl⟩

end Sys2Proof.Machine

open Sys2Proof Sys2Proof.Machine

/-- Settles O56, by the three formats: a command by its fields, a bus word by its row, a sample by its two parts. -/
theorem decodeInvertsEncode : Obligations.DecodeInvertsEncode := by
  intro prev i hw hsel
  cases hc : i.isCommand with
  | true => exact decode_encode_of_isCommand prev hc hw
  | false =>
    cases i <;> simp only [Instr.isCommand, Bool.true_eq_false] at hc
    case sampleEdge w => simpa [encode, decode, decodeSample, Instr.selectedAt] using hsel
    case sampleNoEdge c w => cases prev <;> simp_all [encode, decode, decodeSample, Instr.selectedAt]
    all_goals rfl

/-- Settles O57, by the three formats: each decoder keeps all of the packet that its instruction does not fix. -/
theorem encodeInvertsDecode : Obligations.EncodeInvertsDecode := by
  intro prev p i hi
  cases p with
  | command w =>
    obtain ⟨_, hrsv, hop⟩ := decodeCommand_eq_ok.mp hi
    obtain ⟨he, hw, hsel⟩ := encode_of_decodeOp (hField_lt w) (dField_lt w) (bField_lt w) (aField_lt w) hop
    exact ⟨he.trans (encodeFields_of_fields hrsv), hw, hsel prev⟩
  | sample v =>
    cases hi
    exact encode_decodeSample prev v
  | busWord w =>
    cases hi
    obtain ⟨he, hw, hsel⟩ := encode_decodeBusWord w
    exact ⟨he, hw, hsel prev⟩

/-- Settles O58: both sides speak of the fields that the word's `op` leaves unused. -/
theorem decoderMatchesTheOpcodeTable : Obligations.DecoderMatchesTheOpcodeTable :=
  exists_decodeCommand_iff_row

/-- Settles O49: `op` 15 is tested first; a word that matches no row does not decode, and only `op` 15 is illegal. -/
theorem undecodableWordsAreRefused : Obligations.UndecodableWordsAreRefused := by
  intro s inp w rest hev
  refine ⟨fun hop => ?_, fun hop hrows => ?_⟩
  · exact step_of_decode_error (r := .illegalOp) hev rfl (if_pos hop)
  · have hnone : ¬ ∃ i, decodeCommand w = .ok i := by
      rw [exists_decodeCommand_iff_row]
      rintro ⟨row, hmem, hrow⟩
      exact hrows row hmem hrow
    exact step_of_decode_error (r := .reservedBits) hev rfl ((decodeCommand_ok_or_reservedBits hop).resolve_left hnone)

/-- Settles O54: a command is an answer of a value in range, and the word holds such a value below the code. -/
theorem responsesFitTheirFields : Obligations.ResponsesFitTheirFields := by
  intro i s t hs hc ht
  obtain ⟨⟨⟨_, hS⟩, _⟩, _⟩ := hs
  obtain ⟨v, r, hv, he⟩ := exec_eq_answer (Nat.lt_of_le_of_lt hS (by decide)) hc
  obtain ⟨q, hq, hle⟩ := State.answer_response (he.symm.trans ht)
  have hlt := Nat.lt_of_le_of_lt hle hv
  exact ⟨q, hq, hlt, q.word_fields hlt⟩

/-- Settles O59 by running the decoders on the eleven words. -/
theorem wordsOfTheSpecDecode : Obligations.WordsOfTheSpecDecode := by
  unfold Obligations.WordsOfTheSpecDecode
  decide

end

section
/-! PROOFS for 40_position_math: what `DIFF`, `FLP` and `SDIR` answer, and the laws of `diff` and `sdir` on the
ring (40 R100 to R107). The laws rest on two facts: backward is the mirror of forward, and the forward distance is the
difference modulo `S`. -/

namespace Sys2Proof.Machine

/-! ### The commands -/

@[simp] theorem inRing_eq_true {c : Config} {n : Nat} : inRing c n = true ↔ n < c.stepsPerRev := decide_eq_true_iff

@[simp] theorem widthInRange_eq_true {c : Config} {n : Nat} : widthInRange c n = true ↔ n ≤ c.stepsPerRev :=
  decide_eq_true_iff

theorem dirValue_sdir (c : Config) (a b : Nat) :
    dirValue (sdir c a b) = if diff c a b .forward < diff c a b .backward then 1 else 0 := by
  unfold sdir
  split <;> rfl

theorem exec_diff (s : State) (a b : Nat) (d : Direction) :
    exec (.diff a b d) s = .next
      (if a < s.cfg.stepsPerRev ∧ b < s.cfg.stepsPerRev then s.respond .ok (diff s.cfg a b d)
      else s.respond .operandRange 0) := by
  simp only [exec, execDiff, Bool.and_eq_true, inRing_eq_true, State.answer_ok, State.answer_error,
    apply_ite Host.Outcome.next]

theorem exec_flp (s : State) (a : Nat) (d : Direction) :
    exec (.flp a d) s = .next
      (if a ≤ s.cfg.stepsPerRev then s.respond .ok (flp s.cfg a d) else s.respond .operandRange 0) := by
  simp only [exec, execFlp, widthInRange_eq_true, State.answer_ok, State.answer_error,
    apply_ite Host.Outcome.next]

theorem exec_sdir (s : State) (a b : Nat) :
    exec (.sdir a b) s = .next
      (if a < s.cfg.stepsPerRev ∧ b < s.cfg.stepsPerRev then s.respond .ok (dirValue (sdir s.cfg a b))
      else s.respond .operandRange 0) := by
  simp only [exec, execSdir, Bool.and_eq_true, inRing_eq_true, State.answer_ok, State.answer_error,
    apply_ite Host.Outcome.next]

/-- Whichever of two responses is delivered, the next state differs in the response only. -/
theorem exists_resp_of_ite_respond (p : Prop) [Decidable p] (s : State) (st st' : Status) (v v' : Nat) :
    ∃ r, (.next (if p then s.respond st v else s.respond st' v') : Result) = .next { s with resp := some r } := by
  split <;> exact ⟨_, rfl⟩

/-! ### The ring -/

section
variable {c : Config} {a b : Nat}

@[simp] theorem diff_self (c : Config) (a : Nat) (d : Direction) : diff c a a d = 0 := by
  cases d <;> simp [diff]

/-- 40 R103 (d). -/
theorem diff_backward (c : Config) (a b : Nat) : diff c a b .backward = diff c b a .forward := rfl

theorem diff_forward_of_le (hle : a ≤ b) : diff c a b .forward = b - a := if_pos hle

theorem diff_forward_of_lt (hlt : b < a) : diff c a b .forward = c.stepsPerRev - a + b := if_neg (Nat.not_le.mpr hlt)

/-- 40 R103 (b): exactly one of the two walks wraps. -/
theorem diff_forward_add_swap (ha : a < c.stepsPerRev) (hb : b < c.stepsPerRev) (hne : a ≠ b) :
    diff c a b .forward + diff c b a .forward = c.stepsPerRev := by
  rcases hne.lt_or_gt with hlt | hlt
  · rw [diff_forward_of_le hlt.le, diff_forward_of_lt hlt]
    omega
  · rw [diff_forward_of_lt hlt, diff_forward_of_le hlt.le]
    omega

/-- 40 R103 (e), Forward: without a wrap the difference is already in range, with one it is `S` too small. -/
theorem diff_forward_eq_emod (ha : a < c.stepsPerRev) (hb : b < c.stepsPerRev) :
    (diff c a b .forward : Int) = ((b : Int) - a) % c.stepsPerRev := by
  rcases le_or_gt a b with hle | hlt
  · rw [diff_forward_of_le hle, Int.emod_eq_of_lt] <;> omega
  · rw [diff_forward_of_lt hlt, ← Int.add_emod_right, Int.emod_eq_of_lt] <;> omega

/-- 40 R103 (g), Forward. -/
theorem add_diff_forward_mod (ha : a < c.stepsPerRev) (hb : b < c.stepsPerRev) :
    (a + diff c a b .forward) % c.stepsPerRev = b := by
  zify
  rw [diff_forward_eq_emod ha hb, Int.add_emod_emod, add_sub_cancel, Int.emod_eq_of_lt] <;> omega

/-- 40 R103 (g), Backward. -/
theorem sub_diff_backward_emod (ha : a < c.stepsPerRev) (hb : b < c.stepsPerRev) :
    ((a : Int) - diff c a b .backward) % c.stepsPerRev = b := by
  rw [diff_backward, diff_forward_eq_emod hb ha, Int.sub_emod_emod, sub_sub_cancel, Int.emod_eq_of_lt] <;> omega

theorem sdir_eq_forward_iff : sdir c a b = .forward ↔ diff c a b .forward < diff c a b .backward := by
  simp [sdir]

/-- The direction that `sdir` gives is a shorter one, for a tie too (40 R106). -/
theorem diff_sdir (c : Config) (a b : Nat) :
    diff c a b (sdir c a b) = min (diff c a b .forward) (diff c a b .backward) := by
  unfold sdir
  split <;> omega

end

end Sys2Proof.Machine

open Sys2Proof Sys2Proof.Machine

/-- Settles O5: (a), (b), (d), (e) and (g) are lemmas about `diff`; (c) and (f) are (b) read through the mirror (d). -/
theorem diffLawsOnTheRing : Obligations.DiffLawsOnTheRing := by
  intro c a b ha hb
  refine ⟨diff_self c a, diff_forward_add_swap ha hb, fun hne => ?_, diff_backward c a b, diff_forward_eq_emod ha hb,
    diff_forward_eq_emod hb ha, diff_forward_add_swap ha hb, ?_, add_diff_forward_mod ha hb,
    sub_diff_backward_emod ha hb⟩
  · exact diff_forward_add_swap hb ha hne.symm
  · rintro rfl
    simp

/-- Settles O6: the two distances sum to `S`, so the smaller one is at most half of it. -/
theorem shortestDirectionIsShortest : Obligations.ShortestDirectionIsShortest := by
  intro c a b ha hb hne
  have hsum : diff c a b .forward + diff c a b .backward = c.stepsPerRev := diff_forward_add_swap ha hb hne
  rw [sdir_eq_forward_iff, diff_sdir]
  omega

/-- Settles O1: the two directions of `diff`, written out. -/
theorem diffAnswersStepsAroundTheRing : Obligations.DiffAnswersStepsAroundTheRing := by
  intro s a b d
  cases d <;> exact exec_diff s a b _

/-- Settles O2: the two directions of `flp`, written out; halving is monotone, which gives the ranges. -/
theorem flpAnswersTheFieldLeavePosition : Obligations.FlpAnswersTheFieldLeavePosition := by
  intro s a d
  refine ⟨by cases d <;> exact exec_flp s a _, fun ha => ?_⟩
  have hhalf : a / 2 ≤ s.cfg.stepsPerRev / 2 := Nat.div_le_div_right ha
  exact ⟨hhalf, Nat.sub_le_sub_left hhalf _, Nat.sub_le _ _⟩

/-- Settles O3: the value of the direction `sdir` gives is 1 exactly when the forward distance is strictly smaller. -/
theorem sdirAnswersForwardOnlyIfStrictlyShorter : Obligations.SdirAnswersForwardOnlyIfStrictlyShorter := by
  intro s a b
  rw [exec_sdir, dirValue_sdir]

/-- Settles O4: each of the three commands ends in one of two responses. -/
theorem pmuCommandsChangeNothing : Obligations.PmuCommandsChangeNothing := by
  rintro s i (⟨a, b, d, rfl⟩ | ⟨a, d, rfl⟩ | ⟨a, b, rfl⟩)
  · rw [exec_diff]; exact exists_resp_of_ite_respond ..
  · rw [exec_flp]; exact exists_resp_of_ite_respond ..
  · rw [exec_sdir]; exact exists_resp_of_ite_respond ..

end

section
/-! PROOFS for 41_motor_sequencer: the step and its inverse (41 R112 to R116), the queue of steps owed (R111, R122 to
R124), the rate-limited attempt (R118, R119) and the origin reset (R120). What a `TRY` that answers 1 has done is said
once (`exec_tryStep_of_answered_one`); the statements on its timing and on the soft correction are read off it. -/

namespace Sys2Proof.Machine

/-! ### The ring of positions and the cycle of phases -/

section
variable {c : Config} {p : Nat}

theorem succPosition_of_lt (hp : p < c.stepsPerRev) :
    succPosition c p = if p = c.stepsPerRev - 1 then 0 else p + 1 := by
  unfold succPosition
  split
  case isTrue htop => rw [show p + 1 = c.stepsPerRev by omega, Nat.mod_self]
  case isFalse hbelow => exact Nat.mod_eq_of_lt (by omega)

theorem predPosition_of_lt (hp : p < c.stepsPerRev) :
    predPosition c p = if p = 0 then c.stepsPerRev - 1 else p - 1 := by
  unfold predPosition
  split
  case isTrue hzero => rw [hzero, zero_add, Nat.mod_eq_of_lt (by omega)]
  case isFalse hpos =>
    rw [show p + (c.stepsPerRev - 1) = p - 1 + c.stepsPerRev by omega, Nat.add_mod_right,
      Nat.mod_eq_of_lt (by omega)]

theorem predPosition_succPosition (hp : p < c.stepsPerRev) : predPosition c (succPosition c p) = p := by
  rw [predPosition, succPosition, Nat.mod_add_mod, show p + 1 + (c.stepsPerRev - 1) = p + c.stepsPerRev by omega,
    Nat.add_mod_right, Nat.mod_eq_of_lt hp]

theorem succPosition_predPosition (hp : p < c.stepsPerRev) : succPosition c (predPosition c p) = p := by
  rw [succPosition, predPosition, Nat.mod_add_mod, show p + (c.stepsPerRev - 1) + 1 = p + c.stepsPerRev by omega,
    Nat.add_mod_right, Nat.mod_eq_of_lt hp]

theorem prevPhase_nextPhase (hp : 1 ≤ p ∧ p ≤ c.nPhases) : prevPhase c (nextPhase c p) = p := by
  unfold prevPhase nextPhase
  split <;> split <;> omega

theorem nextPhase_prevPhase (hp : 1 ≤ p ∧ p ≤ c.nPhases) : nextPhase c (prevPhase c p) = p := by
  unfold prevPhase nextPhase
  split <;> split <;> omega

/-- A phase in range has its entry in a legal table (41 R112). -/
theorem coilTable_getElem?_eq_coilPattern (hc : c.Ok) (hp : 1 ≤ p ∧ p ≤ c.nPhases) :
    c.coilTable[p - 1]? = some (coilPattern c p) := by
  obtain ⟨_, _, ⟨hlen, _⟩, _⟩ := hc
  have hlt : p - 1 < c.coilTable.length := by omega
  rw [coilPattern, List.getD_eq_getElem _ _ hlt, List.getElem?_eq_getElem hlt]

end

/-! ### What the commands answer and write -/

section
variable (s : State) (h : Hand)

theorem exec_stepf : exec (.stepf h) s = .next ((s.withSeq h ((s.seq h).stepForward s.cfg)).respond .ok 0) := rfl

theorem exec_stepb : exec (.stepb h) s = .next ((s.withSeq h ((s.seq h).stepBackward s.cfg)).respond .ok 0) := rfl

theorem exec_tryStep : exec (.tryStep h) s = .next
    ((s.withSeq h ((s.seq h).tryStep s.cfg s.inp.now).1).respond .ok
      ((s.seq h).tryStep s.cfg s.inp.now).2.toNat) := rfl

theorem exec_plan (d : Direction) :
    exec (.plan h d) s = .next
      (if (s.seq h).plannedSteps + signedSteps d 1 > planMax s.cfg ∨
          (s.seq h).plannedSteps + signedSteps d 1 < planMin s.cfg then s.respond .planOverflow 0
      else (s.withSeq h { s.seq h with plannedSteps := (s.seq h).plannedSteps + signedSteps d 1 }).respond .ok 0) := by
  simp only [exec, execPlan, State.plan, Sequencer.plan, Sequencer.addSteps]
  split <;> rfl

/-- `RECAL` with both operands in range. -/
theorem exec_recal_of_lt {target off : Nat} (d : Direction) (ht : target < s.cfg.stepsPerRev)
    (ho : off < s.cfg.stepsPerRev) :
    exec (.recal h target off d) s = .next
      (if (s.seq h).plannedSteps + signedSteps d off > planMax s.cfg ∨
          (s.seq h).plannedSteps + signedSteps d off < planMin s.cfg then s.respond .planOverflow 0
      else (s.withSeq h { s.seq h with
        plannedSteps := (s.seq h).plannedSteps + signedSteps d off
        position := recalPosition s.cfg target off d }).respond .ok 0) := by
  simp only [exec, execRecal, Sequencer.recalibrate, Sequencer.addSteps, inRing, ht, ho, decide_true, Bool.and_self,
    if_true]
  split_ifs <;> rfl

/-- `RECAL` with an operand out of range. -/
theorem exec_recal_of_ge {target off : Nat} (d : Direction)
    (hout : target ≥ s.cfg.stepsPerRev ∨ off ≥ s.cfg.stepsPerRev) :
    exec (.recal h target off d) s = .next (s.respond .operandRange 0) := by
  have hin : ¬ (inRing s.cfg target && inRing s.cfg off) = true := by
    simp only [Bool.and_eq_true, inRing_eq_true]
    omega
  simp only [exec, execRecal, Sequencer.recalibrate, if_neg hin]
  rfl

/-- A hand written twice, with a response between, is the second write and the last response. -/
@[simp] theorem State.withSeq_respond_withSeq_respond (m m' : Sequencer) (st st' : Status) (v v' : Nat) :
    (((s.withSeq h m).respond st v).withSeq h m').respond st' v' = (s.withSeq h m').respond st' v' := by
  cases h <;> rfl

@[simp] theorem State.withInputs_seq (inp : Inputs) (r : Option Response) :
    ({ s with inp := inp, resp := r } : State).seq h = s.seq h := by cases h <;> rfl

end

/-! ### The lines of `TRY` (41 R118) -/

section
variable {c : Config} {now : Nat} {m : Sequencer}

theorem Sequencer.tryStep_off (hoff : m.coilsEnergized = false) (hp : m.plannedSteps = 0) :
    m.tryStep c now = (m, false) := by
  simp [Sequencer.tryStep, hoff, hp]

theorem Sequencer.tryStep_standstill (hon : m.coilsEnergized = true) (hp : m.plannedSteps = 0)
    (he : elapsed c now m.lastStepTime > c.standstillTimeout) : m.tryStep c now = (m.deenergize, false) := by
  simp [Sequencer.tryStep, hon, hp, he]

theorem Sequencer.tryStep_nothing_owed (hp : m.plannedSteps = 0)
    (he : elapsed c now m.lastStepTime ≤ c.standstillTimeout) : m.tryStep c now = (m, false) := by
  simp [Sequencer.tryStep, hp, Nat.not_lt.mpr he]

theorem Sequencer.tryStep_too_early (hp : m.plannedSteps ≠ 0)
    (he : elapsed c now m.lastStepTime < c.minStepInterval) : m.tryStep c now = (m, false) := by
  simp [Sequencer.tryStep, hp, he]

theorem Sequencer.tryStep_forward (hp : m.plannedSteps > 0)
    (he : elapsed c now m.lastStepTime ≥ c.minStepInterval) :
    m.tryStep c now = ({ m.stepForward c with plannedSteps := m.plannedSteps - 1, lastStepTime := now }, true) := by
  simp [Sequencer.tryStep, hp, hp.ne', Nat.not_lt.mpr he]

theorem Sequencer.tryStep_backward (hp : m.plannedSteps < 0)
    (he : elapsed c now m.lastStepTime ≥ c.minStepInterval) :
    m.tryStep c now = ({ m.stepBackward c with plannedSteps := m.plannedSteps + 1, lastStepTime := now }, true) := by
  simp [Sequencer.tryStep, hp, hp.ne, hp.le, Nat.not_lt.mpr he]

end

/-- A `TRY` that answers 1 came no earlier than the interval after the last step time, and executed one step in the sign
of the steps owed. -/
theorem exec_tryStep_of_answered_one {h : Hand} {s t : State} (ht : exec (.tryStep h) s = .next t)
    (hr : t.resp = some { status := .ok, value := 1 }) :
    s.cfg.minStepInterval ≤ elapsed s.cfg s.inp.now (s.seq h).lastStepTime ∧ t.cfg = s.cfg ∧
    ((0 < (s.seq h).plannedSteps ∧ t.seq h = { (s.seq h).stepForward s.cfg with
        plannedSteps := (s.seq h).plannedSteps - 1, lastStepTime := s.inp.now }) ∨
      ((s.seq h).plannedSteps < 0 ∧ t.seq h = { (s.seq h).stepBackward s.cfg with
        plannedSteps := (s.seq h).plannedSteps + 1, lastStepTime := s.inp.now })) := by
  rw [exec_tryStep] at ht
  cases ht
  rcases Sequencer.tryStep_cases s.cfg s.inp.now (s.seq h) with hc | ⟨_, _, hc⟩ | ⟨hp, he, hc⟩ | ⟨hp, he, hc⟩
  · simp [hc] at hr
  · simp [hc] at hr
  · exact ⟨he, by simp, .inl ⟨hp, by simp [hc]⟩⟩
  · exact ⟨he, by simp, .inr ⟨hp, by simp [hc]⟩⟩

/-! ### The step time between two attempts (41 R119) -/

/-- A homing step that leaves the hand calibrated answers 1 (44 R172). -/
theorem exec_cadv_resp_of_calibrated {h : Hand} {s t : State} (ht : exec (.cadv h) s = .next t)
    (hc : (t.cal h).phase = .calibrated) : t.resp = some { status := .ok, value := 1 } := by
  simp only [exec, execCadv] at ht
  split at ht
  case h_1 p _ =>
    cases ht
    have hp : p.1.phase = .calibrated := by simpa using hc
    simp [doneValue, hp]
  case h_2 e he =>
    cases ht
    obtain ⟨_, _, hph⟩ := cadvRow_error he
    have hs : (s.cal h).phase = .calibrated := by simpa using hc
    simp [hs] at hph

/-- What may stand between two steps of `TRY` leaves the step time. -/
theorem QuietFor.keeps_lastStepTime {h : Hand} {x y : State} (hq : QuietFor h x y) :
    y.cfg = x.cfg ∧ (y.seq h).lastStepTime = (x.seq h).lastStepTime := by
  obtain ⟨i, inp, hx, hrsto, hcadv, htry⟩ := hq
  refine ⟨(exec_cfg_inp_relayTimes hx).1, ?_⟩
  rcases onlyTryAndRstoWriteTheStepTime i _ y h hx with hkept | ⟨hi, _, hr⟩ | ⟨hi | ⟨hi, hcal⟩, _⟩
  · simpa using hkept
  · exact absurd hr (htry hi)
  · exact absurd hi hrsto
  · subst hi
    exact absurd (exec_cadv_resp_of_calibrated hx hcal) (hcadv rfl)

theorem lastStepTime_of_quiet {h : Hand} {x y : State} (hq : Relation.ReflTransGen (QuietFor h) x y) :
    y.cfg = x.cfg ∧ (y.seq h).lastStepTime = (x.seq h).lastStepTime := by
  induction hq with
  | refl => exact ⟨rfl, rfl⟩
  | tail _ hstep ih =>
    obtain ⟨hcfg, htime⟩ := hstep.keeps_lastStepTime
    exact ⟨hcfg.trans ih.1, htime.trans ih.2⟩

/-! ### The soft correction (41 R122, R123) -/

section
variable {c : Config} {target off : Nat}

/-- `recalPosition` as 41 R122 writes it, on integers: `target` less the signed offset, modulo `S`. -/
theorem recalPosition_cast (ho : off ≤ c.stepsPerRev) (d : Direction) :
    (recalPosition c target off d : Int) = ((target : Int) - signedSteps d off) % c.stepsPerRev := by
  cases d with
  | forward =>
    have hadd : ((target + (c.stepsPerRev - off) : Nat) : Int) = (target : Int) - off + c.stepsPerRev := by omega
    rw [recalPosition, Int.natCast_emod, hadd, Int.add_emod_right]
    rfl
  | backward => simp [recalPosition, signedSteps]

theorem recalPosition_zero (ht : target < c.stepsPerRev) (d : Direction) : recalPosition c target 0 d = target := by
  cases d <;> simp [recalPosition, Nat.mod_eq_of_lt ht]

/-- A forward step takes the hand one step nearer the target. -/
theorem succPosition_recalPosition (ho : off + 1 ≤ c.stepsPerRev) :
    succPosition c (recalPosition c target (off + 1) .forward) = recalPosition c target off .forward := by
  rw [succPosition, recalPosition, recalPosition, Nat.mod_add_mod]
  congr 1
  omega

/-- A backward step takes the hand one step nearer the target. -/
theorem predPosition_recalPosition (ho : off + 1 ≤ c.stepsPerRev) :
    predPosition c (recalPosition c target (off + 1) .backward) = recalPosition c target off .backward := by
  rw [predPosition, recalPosition, recalPosition, Nat.mod_add_mod,
    show target + (off + 1) + (c.stepsPerRev - 1) = target + off + c.stepsPerRev by omega, Nat.add_mod_right]

/-- 41 R123: the corrected position lies `off` steps short of the target. -/
theorem diff_recalPosition (ht : target < c.stepsPerRev) (ho : off < c.stepsPerRev) (d : Direction) :
    diff c (recalPosition c target off d) target d = off := by
  have hlt := recalPosition_lt (by omega : 0 < c.stepsPerRev) target off d
  have hpos := recalPosition_cast (target := target) ho.le d
  have hoff : (off : Int) % c.stepsPerRev = off := Int.emod_eq_of_lt (by omega) (by omega)
  zify
  cases d with
  | forward => rw [diff_forward_eq_emod hlt ht, hpos, Int.sub_emod_emod, signedSteps, sub_sub_cancel, hoff]
  | backward =>
    rw [diff_backward, diff_forward_eq_emod ht hlt, hpos, Int.emod_sub_emod, signedSteps, sub_neg_eq_add,
      add_sub_cancel_left, hoff]

end

/-- Walking back from the end of a way in the other direction covers the same steps (40 R103 (d)). -/
theorem diff_opp (c : Config) (a b : Nat) (d : Direction) : diff c a b d.opp = diff c b a d := by
  cases d <;> rfl

/-- A `RECAL` that is performed: operands in range, the steps owed changed, the position rewritten. -/
theorem exec_recal_performed {h : Hand} {s t : State} {target off : Nat} {d : Direction}
    (ht : exec (.recal h target off d) s = .next t) (hr : t.resp = some { status := .ok, value := 0 }) :
    target < s.cfg.stepsPerRev ∧ off < s.cfg.stepsPerRev ∧ t.cfg = s.cfg ∧
      (t.seq h).plannedSteps = (s.seq h).plannedSteps + signedSteps d off ∧
      (t.seq h).position = recalPosition s.cfg target off d := by
  by_cases hin : target < s.cfg.stepsPerRev ∧ off < s.cfg.stepsPerRev
  · obtain ⟨htarget, hoff⟩ := hin
    rw [exec_recal_of_lt s h d htarget hoff] at ht
    cases ht
    split at hr
    case isTrue => simp at hr
    case isFalse hfits => simp [hfits, htarget, hoff]
  · rw [exec_recal_of_ge s h d (by omega)] at ht
    cases ht
    simp at hr

theorem stepsTaken_cons {h : Hand} {s u : State} {inp : Inputs} {rest : List Inputs}
    (hu : stepsTaken h s (inp :: rest) = some u) :
    ∃ t, execAt (.tryStep h) inp s = .next t ∧ t.resp = some { status := .ok, value := 1 } ∧
      stepsTaken h t rest = some u := by
  rw [stepsTaken] at hu
  split at hu
  case h_1 t ht =>
    split_ifs at hu with hr
    exact ⟨t, ht, hr, hu⟩
  case h_2 => cases hu
  case h_3 => cases hu

/-- The hand owes the `off + 1` steps that it is short of the target: a step of `TRY` leaves it `off` steps short, owing
these. -/
theorem execAt_tryStep_nearer {h : Hand} {s t : State} {inp : Inputs} {target off : Nat} {d : Direction}
    (ho : off + 1 ≤ s.cfg.stepsPerRev) (hplan : (s.seq h).plannedSteps = signedSteps d (off + 1))
    (hpos : (s.seq h).position = recalPosition s.cfg target (off + 1) d)
    (ht : execAt (.tryStep h) inp s = .next t) (hr : t.resp = some { status := .ok, value := 1 }) :
    t.cfg = s.cfg ∧ (t.seq h).plannedSteps = signedSteps d off ∧
      (t.seq h).position = recalPosition s.cfg target off d := by
  obtain ⟨_, hcfg, hstep⟩ := exec_tryStep_of_answered_one ht hr
  rw [State.withInputs_seq, hplan] at hstep
  refine ⟨hcfg, ?_⟩
  cases d with
  | forward =>
    obtain ⟨_, he⟩ := hstep.resolve_right (by simp [signedSteps]; omega)
    simp [he, hpos, succPosition_recalPosition ho, signedSteps]
  | backward =>
    obtain ⟨_, he⟩ := hstep.resolve_left (by simp [signedSteps])
    simp [he, hpos, predPosition_recalPosition ho, signedSteps]

/-- 41 R123: a hand that owes just the steps it is short of the target reaches it when they are taken. -/
theorem stepsTaken_reaches_target {h : Hand} {c : Config} {target : Nat} {d : Direction} {u : State}
    (inputs : List Inputs) : ∀ {t : State}, t.cfg = c → inputs.length ≤ c.stepsPerRev →
      (t.seq h).plannedSteps = signedSteps d inputs.length →
      (t.seq h).position = recalPosition c target inputs.length d → stepsTaken h t inputs = some u →
      (u.seq h).plannedSteps = 0 ∧ (u.seq h).position = recalPosition c target 0 d := by
  induction inputs with
  | nil =>
    rintro t - - hplan hpos hu
    cases hu
    exact ⟨by rw [hplan]; cases d <;> rfl, hpos⟩
  | cons inp rest ih =>
    rintro t rfl hlen hplan hpos hu
    obtain ⟨t', ht, hr, hrest⟩ := stepsTaken_cons hu
    obtain ⟨hcfg, hplan', hpos'⟩ := execAt_tryStep_nearer hlen hplan hpos ht hr
    exact ih hcfg (Nat.le_of_succ_le hlen) hplan' hpos' hrest

end Sys2Proof.Machine

open Sys2Proof Sys2Proof.Machine

/-- Settles O8: the signed change is `±1` by the direction. -/
theorem planQueuesOneStep : Obligations.PlanQueuesOneStep := by
  intro s h d p hp
  have hsum : (s.seq h).plannedSteps + signedSteps d 1 = p := by
    rw [hp]
    cases d <;> rfl
  rw [exec_plan, hsum, planMax_eq, planMin_eq]

/-- Settles O9: the step of the model, its position written with the wrap and its pattern found in the table. -/
theorem stepForwardTakesTheNextPhase : Obligations.StepForwardTakesTheNextPhase := by
  intro s h hs
  obtain ⟨hcfg, hseq, _⟩ := s.inv_iff.mp hs
  obtain ⟨hpos, hphase, _⟩ := hseq h
  refine ⟨_, _, rfl, coilTable_getElem?_eq_coilPattern hcfg (nextPhase_mem hphase), ?_⟩
  rw [exec_stepf, ← succPosition_of_lt hpos]
  rfl

/-- Settles O15: the registers of `resetOrigin`, written out. -/
theorem rstoRebasesTheOrigin : Obligations.RstoRebasesTheOrigin :=
  fun _ _ => rfl

/-- Settles O10: the mirror of O9; position and phase are restored because the two successors are inverse, the coil
because it is the pattern of the phase. -/
theorem stepBackwardTakesThePreviousPhase : Obligations.StepBackwardTakesThePreviousPhase := by
  intro s h hs
  obtain ⟨hcfg, hseq, _⟩ := s.inv_iff.mp hs
  obtain ⟨hpos, hphase, _, _, hcoil⟩ := hseq h
  refine ⟨⟨_, _, rfl, coilTable_getElem?_eq_coilPattern hcfg (prevPhase_mem hphase), ?step⟩, ?inverse⟩
  case step =>
    rw [exec_stepb, ← predPosition_of_lt hpos]
    rfl
  case inverse =>
    rintro i j d (⟨rfl, rfl, rfl⟩ | ⟨rfl, rfl, rfl⟩)
    · refine ⟨_, _, exec_stepf s h, exec_stepb _ h, ?_⟩
      simp +contextual [predPosition_succPosition hpos, prevPhase_nextPhase hphase, hcoil]
    · refine ⟨_, _, exec_stepb s h, exec_stepf _ h, ?_⟩
      simp +contextual [succPosition_predPosition hpos, nextPhase_prevPhase hphase, hcoil]

/-- Settles O11, line by line. -/
theorem tryFollowsItsFourLines : Obligations.TryFollowsItsFourLines := by
  rintro s h e rfl
  rw [exec_tryStep]
  refine ⟨fun hoff hp => ?_, fun hon hp he => ?_, fun _ hp he => ?_, fun hp he => ?_,
    fun hp he => ⟨_, exec_stepf s h, ?_⟩, fun hp he => ⟨_, exec_stepb s h, ?_⟩⟩
  · simp [Sequencer.tryStep_off hoff hp]
  · rw [Sequencer.tryStep_standstill hon hp he]
    rfl
  · simp [Sequencer.tryStep_nothing_owed hp he]
  · simp [Sequencer.tryStep_too_early hp he]
  · simp [Sequencer.tryStep_forward hp he]
  · simp [Sequencer.tryStep_backward hp he]

/-- Settles O12: a step takes one off the steps owed, in their sign. -/
theorem tryExecutesAtMostOneStep : Obligations.TryExecutesAtMostOneStep := by
  intro s t h hs ht
  have hback := predPosition_cast (stepsPerRev_pos hs.1) (s.seq h).position
  rw [exec_tryStep] at ht
  cases ht
  rcases Sequencer.tryStep_cases s.cfg s.inp.now (s.seq h) with hc | ⟨_, _, hc⟩ | ⟨hp, _, hc⟩ | ⟨hp, _, hc⟩
  · simp [hc]
  · simp [hc]
  · exact ⟨.inr (.inl (by simp [hc, succPosition, hp])), by simp [hc]; omega⟩
  · exact ⟨.inr (.inr (by simp [hc, hback, hp])), by simp [hc]; omega⟩

/-- Settles O13: the first step sets the step time, nothing between writes it, and the second step waits for it. -/
theorem tryNeverStepsTwiceWithinTheInterval : Obligations.TryNeverStepsTwiceWithinTheInterval := by
  intro h s t u v hst hrt hq huv hrv
  obtain ⟨_, hcfg, hfirst⟩ := exec_tryStep_of_answered_one hst hrt
  have hset : (t.seq h).lastStepTime = s.inp.now := by
    rcases hfirst with ⟨_, he⟩ | ⟨_, he⟩ <;> rw [he]
  obtain ⟨hcfg', hkept⟩ := lastStepTime_of_quiet hq
  obtain ⟨hwait, _⟩ := exec_tryStep_of_answered_one huv hrv
  rwa [hkept, hset, hcfg', hcfg] at hwait

/-- Settles O16: operands out of range first, then the sum of the steps owed, by its range. -/
theorem recalAppliesTheSoftCorrection : Obligations.RecalAppliesTheSoftCorrection := by
  intro s h target off d p q hp hq
  by_cases hout : target ≥ s.cfg.stepsPerRev ∨ off ≥ s.cfg.stepsPerRev
  · rw [exec_recal_of_ge s h d hout, if_pos hout]
  · have hsum : (s.seq h).plannedSteps + signedSteps d off = p := by
      rw [hp]
      cases d <;> rfl
    have hpos : recalPosition s.cfg target off d = q.toNat := by
      have hcast := recalPosition_cast (c := s.cfg) (target := target) (off := off) (by omega) d
      rw [← Int.toNat_natCast (recalPosition s.cfg target off d), hcast, hq]
      cases d <;> simp [signedSteps]
    rw [exec_recal_of_lt s h d (by omega) (by omega), if_neg hout, hsum, hpos, planMax_eq, planMin_eq]

/-- Settles O17: the corrected position is `off` short of the target, and that many steps are owed. -/
theorem recalConvergesOnTheTarget : Obligations.RecalConvergesOnTheTarget := by
  intro s t h target off d ht hr
  obtain ⟨htarget, hoff, hcfg, hplan, hpos⟩ := exec_recal_performed ht hr
  have hdiff : diff s.cfg (t.seq h).position target d = off := hpos ▸ diff_recalPosition htarget hoff d
  refine ⟨hdiff, (diff_opp ..).trans hdiff, ?_⟩
  rintro hnone inputs u rfl hu
  rw [hnone, zero_add] at hplan
  obtain ⟨hdone, harrived⟩ := stepsTaken_reaches_target inputs hcfg hoff.le hplan hpos hu
  exact ⟨harrived.trans (recalPosition_zero htarget d), hdone⟩

end

section
/-! PROOFS for 42_bus_relay: the edge detector and its handler (42 R131, R133), the housekeeping (R137, R138, R141), the
drain (R139) and what only an edge or a late `TICKP` can do (R140, R143). A drain that finds a word pending is its
dispatch, and the dispatch is what the word's own instruction does (`exec_decodeBusWord`); a move word's dispatch is said
once by its flags (`dispatch_of_move`). -/

namespace Sys2Proof.Machine

/-! ### Samples and housekeeping -/

section
variable (s : State)

theorem exec_sampleEdge (w : BusWord) : exec (.sampleEdge w) s = .next ((s.edge w).seeClk true) := rfl

theorem exec_sampleNoEdge (c : Bool) (w : BusWord) : exec (.sampleNoEdge c w) s = .next (s.seeClk c) := rfl

theorem exec_tickp : exec .tickp s = .next (s.tickp.respond .ok 0) := rfl

theorem exec_ticki : exec .ticki s = .next (s.ticki.respond .ok 0) := rfl

@[simp] theorem State.tickp_respond (st : Status) (v : Nat) : (s.respond st v).tickp = s.tickp.respond st v := by
  rw [State.tickp, State.tickp, apply_ite (State.respond · st v)]
  rfl

@[simp] theorem State.ticki_respond (st : Status) (v : Nat) : (s.respond st v).ticki = s.ticki.respond st v := by
  rw [State.ticki, State.ticki, apply_ite (State.respond · st v)]
  rfl

/-- Neither half of `TICK` writes what the other one reads. -/
theorem State.ticki_tickp : s.tickp.ticki = s.ticki.tickp := by
  by_cases hpulse : s.rly.clockLineHigh = true ∧ elapsed s.cfg s.inp.now s.rly.lastSendTime > s.cfg.minPulseWidth
  all_goals
    by_cases hidle : s.rly.relaying = true ∧
      elapsed s.cfg s.inp.now s.rly.lastReceiveTime > s.cfg.interInstructionTimeout <;>
    simp [State.tickp, State.ticki, hpulse, hidle]

end

theorem decodeSample_of_edge {prev : Bool} {v : PinSample} (hv : sampleClk v = true ∧ prev = false) :
    decodeSample prev v = .sampleEdge (sampleData v) := by
  simp [decodeSample, hv]

theorem decodeSample_of_no_edge {prev : Bool} {v : PinSample} (hv : ¬ (sampleClk v = true ∧ prev = false)) :
    decodeSample prev v = .sampleNoEdge (sampleClk v) (sampleData v) :=
  if_neg (by simpa using hv)

/-! ### The dispatch of a word -/

@[simp] theorem planIf_false (h : Hand) (d : Direction) (r : Except Status State) : planIf false h d r = r := by
  cases r <;> rfl

@[simp] theorem planIf_error (flag : Bool) (h : Hand) (d : Direction) (e : Status) :
    planIf flag h d (.error e) = .error e := rfl

@[simp] theorem planIf_true_ok (h : Hand) (d : Direction) (s : State) : planIf true h d (.ok s) = s.plan h d := rfl

theorem dispatch_of_trig {w : BusWord} (ht : trig w = true) (s : State) : dispatch w s = .ok s.restartHoming :=
  if_pos ht

theorem dispatch_of_not_trig {w : BusWord} (ht : trig w = false) (s : State) :
    dispatch w s = planIf (flagMF w) .minute .forward (planIf (flagMB w) .minute .backward
      (planIf (flagHF w) .hour .forward (planIf (flagHB w) .hour .backward (.ok s)))) :=
  if_neg (by simp [ht])

/-- `planIf` adds no other refusal than `PlanOverflow`. -/
theorem planIf_refusal {flag : Bool} {h : Hand} {d : Direction} {r : Except Status State} {e : Status}
    (hr : ∀ e', r = .error e' → e' = .planOverflow) (hp : planIf flag h d r = .error e) : e = .planOverflow := by
  cases r with
  | error e' =>
    cases hp
    exact hr _ rfl
  | ok s =>
    cases flag
    · cases hp
    · exact (State.plan_error hp).1

/-- A dispatch is refused for one reason only (43 R151). -/
theorem dispatch_error {w : BusWord} {s : State} {e : Status} (hd : dispatch w s = .error e) : e = .planOverflow := by
  cases ht : trig w
  · rw [dispatch_of_not_trig ht] at hd
    refine planIf_refusal (fun _ hMB => ?_) hd
    refine planIf_refusal (fun _ hHF => ?_) hMB
    refine planIf_refusal (fun _ hHB => ?_) hHF
    exact planIf_refusal (fun _ hok => by cases hok) hHB
  · cases (dispatch_of_trig ht s).symm.trans hd

/-- A dispatch leaves the mailbox to the `DRAIN` and answers nothing itself. -/
theorem dispatch_ok_frame {w : BusWord} {s t : State} (hd : dispatch w s = .ok t) :
    t.mbx = s.mbx ∧ t.resp = s.resp := by
  rcases dispatch_ok hd with ⟨_, rfl⟩ | ⟨_, _, _, _, _, rfl⟩ <;> exact ⟨rfl, rfl⟩

/-- Each bus word's own instruction is its dispatch (43 R150): for each of the sixteen words, the plans its flags leave
are those of its rule. -/
theorem exec_decodeBusWord (w : BusWord) (s : State) : exec (decodeBusWord w) s = s.settle (dispatch w s) := by
  have hw : w ∈ [0b0000, 0b0001, 0b0010, 0b0011, 0b0100, 0b0101, 0b0110, 0b0111, 0b1000, 0b1001, 0b1010, 0b1011,
      0b1100, 0b1101, 0b1110, 0b1111] := by
    revert w
    decide
  fin_cases hw
  all_goals
    simp [dispatch, trig, flagHB, flagHF, flagMB, flagMF]
    rfl

theorem State.plan_eq {s : State} {h : Hand} {d : Direction} {p : Int}
    (hp : p = (s.seq h).plannedSteps + signedSteps d 1) :
    s.plan h d = if p > planMax s.cfg ∨ p < planMin s.cfg then .error .planOverflow
      else .ok (s.withSeq h { s.seq h with plannedSteps := p }) := by
  subst hp
  rw [State.plan, Sequencer.plan, Sequencer.addSteps]
  split_ifs <;> rfl

/-- The two flags of one hand change its steps owed by their difference. -/
theorem planIf_forward_planIf_backward {s : State} {h : Hand} {fwd back : Bool} (hnot : (back && fwd) = false)
    (hr : planMin s.cfg ≤ (s.seq h).plannedSteps ∧ (s.seq h).plannedSteps ≤ planMax s.cfg) {p : Int}
    (hp : p = (s.seq h).plannedSteps + fwd.toNat - back.toNat) :
    planIf fwd h .forward (planIf back h .backward (.ok s)) =
      if p > planMax s.cfg ∨ p < planMin s.cfg then .error .planOverflow
      else .ok (s.withSeq h { s.seq h with plannedSteps := p }) := by
  cases fwd <;> cases back
  case true.true => simp at hnot
  case false.false =>
    obtain rfl : p = (s.seq h).plannedSteps := by simpa using hp
    rw [if_neg (by omega), State.withSeq_self]
    rfl
  case true.false => exact State.plan_eq (by simpa [signedSteps] using hp)
  case false.true =>
    rw [planIf_false]
    exact State.plan_eq (by simpa [signedSteps, sub_eq_add_neg] using hp)

/-- `dispatch` of a word that is no trigger. -/
theorem dispatch_of_move {w : BusWord} {s : State} (ht : trig w = false)
    (hH : planMin s.cfg ≤ s.seqH.plannedSteps ∧ s.seqH.plannedSteps ≤ planMax s.cfg)
    (hM : planMin s.cfg ≤ s.seqM.plannedSteps ∧ s.seqM.plannedSteps ≤ planMax s.cfg) {pH pM : Int}
    (hpH : pH = s.seqH.plannedSteps + (flagHF w).toNat - (flagHB w).toNat)
    (hpM : pM = s.seqM.plannedSteps + (flagMF w).toNat - (flagMB w).toNat) :
    dispatch w s =
      if pH > planMax s.cfg ∨ pH < planMin s.cfg ∨ pM > planMax s.cfg ∨ pM < planMin s.cfg then .error .planOverflow
      else .ok { s with
        seqH := { s.seqH with plannedSteps := pH }, seqM := { s.seqM with plannedSteps := pM } } := by
  obtain ⟨hh, hm⟩ : (flagHB w && flagHF w) = false ∧ (flagMB w && flagMF w) = false := by
    simpa [trig] using ht
  rw [dispatch_of_not_trig ht, planIf_forward_planIf_backward hh hH hpH]
  by_cases hover : pH > planMax s.cfg ∨ pH < planMin s.cfg
  · rw [if_pos hover, if_pos (by tauto), planIf_error, planIf_error]
  · rw [if_neg hover, planIf_forward_planIf_backward hm (by simpa using hM) (by simpa using hpM), State.withSeq_cfg]
    split_ifs
    · rfl
    · omega
    · omega
    · rfl

/-! ### The drain -/

section
variable {s : State}

theorem exec_drain_of_empty (hp : s.mbx.pending = false) :
    exec .drain s = .next (s.respond .ok s.mbx.data.toNat) := by
  simp [exec, execDrain, State.drain, drainValue, hp]

theorem exec_drain_of_dispatch_ok {t : State} (hp : s.mbx.pending = true) (hd : dispatch s.mbx.data s = .ok t) :
    exec .drain s = .next
      ({ t with mbx := { pending := false, data := s.mbx.data } }.respond .ok (16 + s.mbx.data.toNat)) := by
  simp [exec, execDrain, State.drain, drainValue, State.emptyMailbox, hp, hd, (dispatch_ok_frame hd).1]

theorem exec_drain_of_dispatch_error {e : Status} (hp : s.mbx.pending = true)
    (hd : dispatch s.mbx.data s = .error e) : exec .drain s = .next (s.respond .planOverflow 0) := by
  simp [exec, execDrain, State.drain, hp, hd, dispatch_error hd]

end

end Sys2Proof.Machine

open Sys2Proof Sys2Proof.Machine

/-- Settles O21: the decoder gives the row with an edge exactly on a rising edge, and both rows store the level. -/
theorem sampleDetectsTheRisingEdge : Obligations.SampleDetectsTheRisingEdge := by
  intro s inp v rest hev
  rw [step_of_decode hev rfl rfl]
  by_cases hedge : sampleClk v = true ∧ s.rly.inClkPrev = false
  · rw [decodeSample_of_edge hedge]
    exact ⟨_, exec_sampleEdge .., hedge.1.symm, fun _ => rfl, fun hno => absurd hedge hno⟩
  · rw [decodeSample_of_no_edge hedge]
    exact ⟨_, exec_sampleNoEdge .., rfl, fun hyes => absurd hyes hedge, fun _ => rfl⟩

/-- Settles O25: the answer and the mailbox by the drain's three outcomes, the rest by the dispatch of the word. -/
theorem drainDispatchesThePendingWord : Obligations.DrainDispatchesThePendingWord := by
  intro s pH pM hpH hpM hs
  obtain ⟨_, hseq, _⟩ := s.inv_iff.mp hs
  obtain ⟨_, _, hH, _⟩ := hseq .hour
  obtain ⟨_, _, hM, _⟩ := hseq .minute
  refine ⟨exec_drain_of_empty, fun hp ht => exec_drain_of_dispatch_ok hp (dispatch_of_trig ht s), fun hp ht => ?_⟩
  have hd := dispatch_of_move ht hH hM hpH hpM
  split_ifs at hd ⊢
  · exact exec_drain_of_dispatch_error hp hd
  · exact exec_drain_of_dispatch_ok hp hd

/-- Settles O26: each order is both halves with the answer 0, and the halves commute. -/
theorem tickHalvesCommute : Obligations.TickHalvesCommute := by
  intro s t u t' u' ht hu ht' hu'
  cases (exec_tickp s).symm.trans ht
  cases (exec_ticki _).symm.trans hu
  cases (exec_ticki s).symm.trans ht'
  cases (exec_tickp _).symm.trans hu'
  simp [State.ticki_tickp]

/-- Settles O27: of the ways mailbox and relay change, only latching sets `pending`. -/
theorem onlyALatchingEdgeMakesAWordPending : Obligations.OnlyALatchingEdgeMakesAWordPending := by
  intro i s t ht hempty hpending
  cases exec_busChange ht with
  | latched w hi hrel hm hr => exact ⟨w, hi, hrel, by rw [hm], by rw [hr]⟩
  | kept hm | drained _ _ hm | pulseEnded _ _ _ hm | released _ _ _ hm | forwarded _ _ _ hm | clockSeen _ _ _ hm =>
    simp [hm, hempty] at hpending

/-- Settles O29: of the ways the relay changes, only the end of a pulse lowers the outbound clock and only forwarding
raises it. -/
theorem pulseLastsBeyondItsMinimum : Obligations.PulseLastsBeyondItsMinimum := by
  intro i s t ht
  cases exec_busChange ht with
  | pulseEnded hi _ he _ hr => exact ⟨fun _ _ => ⟨hi, he⟩, by simp [hr]⟩
  | forwarded w hi hrel _ hr => exact ⟨by simp [hr], fun _ _ => ⟨w, hi, hrel, by rw [hr], by rw [hr]⟩⟩
  | kept _ hr | drained _ _ _ hr | released _ _ _ _ hr | latched _ _ _ _ hr | clockSeen _ _ _ _ hr =>
    simp +contextual [hr]

/-- Settles O33: both are the word's dispatch, which leaves the mailbox and the answer to the `DRAIN`. -/
theorem drainRunsTheWordInTheMailbox : Obligations.DrainRunsTheWordInTheMailbox := by
  intro s w hmbx hresp
  have hp : s.mbx.pending = true := by rw [hmbx]
  obtain rfl : s.mbx.data = w := by rw [hmbx]
  rw [exec_decodeBusWord]
  cases hd : dispatch s.mbx.data s with
  | ok t => exact ⟨t, rfl, .inl ⟨(dispatch_ok_frame hd).2.trans hresp, exec_drain_of_dispatch_ok hp hd⟩⟩
  | error e =>
    obtain rfl := dispatch_error hd
    exact ⟨_, rfl, .inr ⟨rfl, exec_drain_of_dispatch_error hp hd⟩⟩

/-- Settles O20: the two branches of the handler, and the row that stores the level. -/
theorem samplesLatchForwardOrPass : Obligations.SamplesLatchForwardOrPass := by
  intro s w c
  rw [exec_sampleEdge]
  rcases s.edge_cases w with ⟨hrel, he⟩ | ⟨hidle, he⟩
  · exact ⟨fun _ => by simp [he, State.seeClk, hrel], by simp [hrel], exec_sampleNoEdge s c w⟩
  · exact ⟨by simp [hidle], fun _ => by simp [he, State.seeClk], exec_sampleNoEdge s c w⟩

/-- Settles O22: the model's `TICKP` with its answer. -/
theorem tickpEndsThePulse : Obligations.TickpEndsThePulse := exec_tickp

/-- Settles O23: the model's `TICKI` with its answer. -/
theorem tickiReleasesTheRelay : Obligations.TickiReleasesTheRelay := exec_ticki

end

section
/-! PROOFS for 43_bus_words: the instruction of a word is its dispatch (`exec_decodeBusWord`), so each row of the words is
read off its flags alone: a move word by `dispatch_of_move`, a trigger word by `dispatch_of_trig`. -/

open Sys2Proof Sys2Proof.Machine

/-- Settles O31: in each of the nine rows the word decodes to the instruction, is no trigger, and changes each count by
the difference of that hand's two flags. -/
theorem moveWordsPlanOneStepPerFlag : Obligations.MoveWordsPlanOneStepPerFlag := by
  intro s i w dH dM hs hmem
  have hrow : decodeBusWord w = i ∧ trig w = false ∧ dH = (flagHF w).toNat - (flagHB w).toNat ∧
      dM = (flagMF w).toNat - (flagMB w).toNat := by
    fin_cases hmem <;> decide
  obtain ⟨rfl, ht, hdH, hdM⟩ := hrow
  obtain ⟨_, hseq, _⟩ := s.inv_iff.mp hs
  obtain ⟨_, _, hH, _⟩ := hseq .hour
  obtain ⟨_, _, hM, _⟩ := hseq .minute
  have hd := dispatch_of_move ht hH hM (pH := s.seqH.plannedSteps + dH) (pM := s.seqM.plannedSteps + dM)
    (by omega) (by omega)
  refine ⟨rfl, ?_⟩
  rw [exec_decodeBusWord, hd]
  split_ifs
  · omega
  · rfl
  · rfl
  · omega

/-- Settles O32: in each of the seven rows the word decodes to the instruction and is a trigger. -/
theorem homeWordsRestartBothHands : Obligations.HomeWordsRestartBothHands := by
  intro s i w hmem
  have hrow : decodeBusWord w = i ∧ trig w = true := by
    fin_cases hmem <;> decide
  obtain ⟨rfl, ht⟩ := hrow
  refine ⟨rfl, ?_⟩
  rw [exec_decodeBusWord, dispatch_of_trig ht]
  rfl

end

section
/-! PROOFS for 44_calibration: the restart (44 R171), the homing table (R172 to R176), a homing run (R177) and the drift
check (R180, R181). Each row of the homing table and each path of the drift check is said once, on the registers of one
hand, and `CADV` and `CDRIFT` are read off these. A homing run is its rows folded over its inputs (`homingRows`): as
many forward steps as the field is wide, then half as many back. -/

namespace Sys2Proof.Machine

/-! ### A hand's registers written and read -/

theorem State.inField_of_low {s : State} {h : Hand} (hl : s.inp.hall h = false) : s.inField h = true := by
  simp [State.inField, hl]

theorem State.inField_of_high {s : State} {h : Hand} (hl : s.inp.hall h = true) : s.inField h = false := by
  simp [State.inField, hl]

section
variable (s : State) (h : Hand)

@[simp] theorem State.withHand_seq_self (k : Calibration) : s.withHand h (k, s.seq h) = s.withCal h k := by
  cases h <;> rfl

/-- A controller written twice, with a response between, is the second write and the last response. -/
@[simp] theorem State.withCal_respond_withCal_respond (k k' : Calibration) (st st' : Status) (v v' : Nat) :
    (((s.withCal h k).respond st v).withCal h k').respond st' v' = (s.withCal h k').respond st' v' := by
  cases h <;> rfl

/-- A sequencer written and answered, then the controller: both registers of the hand and the last response. -/
@[simp] theorem State.withSeq_respond_withCal_respond (m : Sequencer) (k : Calibration) (st st' : Status)
    (v v' : Nat) :
    (((s.withSeq h m).respond st v).withCal h k).respond st' v' = (s.withHand h (k, m)).respond st' v' := by
  cases h <;> rfl

@[simp] theorem State.withInputs_cal (inp : Inputs) (r : Option Response) :
    ({ s with inp := inp, resp := r } : State).cal h = s.cal h := by cases h <;> rfl

theorem exec_cstart : exec (.cstart h) s = .next ((s.withCal h (s.cal h).start).respond .ok 0) := rfl

end

/-! ### The rows of the homing table -/

/-- Where `CADV` counts a forward step: outside the field that is sought, or inside the field that is measured
(44 R174, R175). -/
abbrev CountsForward (inField : Bool) (k : Calibration) : Prop :=
  (k.phase = .findField ∧ inField = false) ∨ (k.phase = .inField ∧ inField = true)

section
variable {g : Config} {inField : Bool} {k : Calibration} {m : Sequencer}

/-- 44 R173, the first row. -/
theorem cadvRow_leaveField_done (hp : k.phase = .leaveField) (h0 : k.stepCount = 0) :
    cadvRow g inField k m = .ok ({ k with phase := .findField }, m) := by
  simp [cadvRow, cadvLeaveField, hp, h0]

/-- 44 R173 and R176: the rows that count backward steps down. -/
theorem cadvRow_countBackward (hp : k.phase = .leaveField ∨ k.phase = .centering) (h0 : k.stepCount ≠ 0) :
    cadvRow g inField k m = .ok ({ k with stepCount := k.stepCount - 1 }, m.stepBackward g) := by
  rcases hp with hp | hp
  · simp [cadvRow, cadvLeaveField, hp, h0]
  · simp [cadvRow, cadvCentering, hp, h0]

/-- 44 R174, the first row: the field is met too soon. -/
theorem cadvRow_findField_tooSoon (hp : k.phase = .findField) (hin : inField = true)
    (hc : k.stepCount ≤ g.minStepsOutsideField) :
    cadvRow g inField k m =
      .ok ({ k with stepCount := g.minStepsOutsideField + 1, phase := .leaveField }, m) := by
  simp [cadvRow, cadvFindField, hp, hin, hc]

/-- 44 R174, the second row: the field is entered. -/
theorem cadvRow_findField_entered (hp : k.phase = .findField) (hin : inField = true)
    (hc : k.stepCount > g.minStepsOutsideField) :
    cadvRow g inField k m = .ok ({ k with stepCount := 0, phase := .inField }, m) := by
  simp [cadvRow, cadvFindField, hp, hin, Nat.not_le.mpr hc]

/-- 44 R174 and R175: the rows that count a forward step. -/
theorem cadvRow_eq_countForward (hp : CountsForward inField k) :
    cadvRow g inField k m = cadvCountForward g k m := by
  rcases hp with ⟨hp, hin⟩ | ⟨hp, hin⟩
  · simp [cadvRow, cadvFindField, hp, hin]
  · simp [cadvRow, cadvInField, hp, hin]

theorem cadvCountForward_of_ne (hc : k.stepCount ≠ countMax g) :
    cadvCountForward g k m = .ok ({ k with stepCount := k.stepCount + 1 }, m.stepForward g) := if_neg hc

theorem cadvCountForward_of_eq (hc : k.stepCount = countMax g) :
    cadvCountForward g k m = .error .countOverflow := if_pos hc

/-- 44 R175, the first row: the field is left. -/
theorem cadvRow_inField_left (hp : k.phase = .inField) (hout : inField = false) :
    cadvRow g inField k m = .ok ({ k with stepCount := k.stepCount / 2, phase := .centering }, m) := by
  simp [cadvRow, cadvInField, hp, hout]

/-- 44 R176, the first row: the centre is reached. -/
theorem cadvRow_centering_done (hp : k.phase = .centering) (h0 : k.stepCount = 0) :
    cadvRow g inField k m = .ok ({ k with ignoreNextField := true, phase := .calibrated }, m.resetOrigin) := by
  simp [cadvRow, cadvCentering, hp, h0]

/-- 44 R172: nothing is left to do. -/
theorem cadvRow_calibrated (hp : k.phase = .calibrated) : cadvRow g inField k m = .ok (k, m) := by
  simp [cadvRow, hp]

end

/-! ### `CADV` from its row -/

section
variable {s : State} {h : Hand}

theorem exec_cadv_of_row {p : Calibration × Sequencer}
    (hr : cadvRow s.cfg (s.inField h) (s.cal h) (s.seq h) = .ok p) :
    exec (.cadv h) s = .next ((s.withHand h p).respond .ok (doneValue p.1)) := by
  simp [exec, execCadv, hr]

theorem exec_cadv_of_refused {e : Status}
    (hr : cadvRow s.cfg (s.inField h) (s.cal h) (s.seq h) = .error e) :
    exec (.cadv h) s = .next (s.respond e 0) := by
  simp [exec, execCadv, hr]

theorem doneValue_of_ne {k : Calibration} (hk : k.phase ≠ .calibrated) : doneValue k = 0 := if_neg hk

/-- A row that steps backward is `STEPB` and the count one less (44 R173, R176). -/
theorem exec_cadv_countBackward (hp : (s.cal h).phase = .leaveField ∨ (s.cal h).phase = .centering)
    (h0 : (s.cal h).stepCount ≠ 0) :
    ∃ u, exec (.stepb h) s = .next u ∧ exec (.cadv h) s = .next
      ((u.withCal h { s.cal h with stepCount := (s.cal h).stepCount - 1 }).respond .ok 0) := by
  refine ⟨_, exec_stepb s h, ?_⟩
  rw [exec_cadv_of_row (cadvRow_countBackward hp h0), State.withSeq_respond_withCal_respond, doneValue_of_ne]
  rcases hp with hp | hp <;> simp [hp]

/-- A row that steps forward is `STEPF` and the count one more (44 R174, R175). -/
theorem exec_cadv_countForward (hp : CountsForward (s.inField h) (s.cal h))
    (hc : (s.cal h).stepCount ≠ countMax s.cfg) :
    ∃ u, exec (.stepf h) s = .next u ∧ exec (.cadv h) s = .next
      ((u.withCal h { s.cal h with stepCount := (s.cal h).stepCount + 1 }).respond .ok 0) := by
  refine ⟨_, exec_stepf s h, ?_⟩
  rw [exec_cadv_of_row ((cadvRow_eq_countForward hp).trans (cadvCountForward_of_ne hc)),
    State.withSeq_respond_withCal_respond, doneValue_of_ne]
  rcases hp with ⟨hp, _⟩ | ⟨hp, _⟩ <;> simp [hp]

/-- A step that the counter cannot count is refused (44 R174, R175). -/
theorem exec_cadv_countOverflow (hp : CountsForward (s.inField h) (s.cal h))
    (hc : (s.cal h).stepCount = countMax s.cfg) :
    exec (.cadv h) s = .next (s.respond .countOverflow 0) :=
  exec_cadv_of_refused ((cadvRow_eq_countForward hp).trans (cadvCountForward_of_eq hc))

end

/-! ### A homing run -/

/-- The rows that `CADV h` takes under each of the given inputs in turn, on the registers of the hand. -/
def homingRows (g : Config) (h : Hand) : Calibration × Sequencer → List Inputs → HandResult :=
  List.foldlM fun p inp => cadvRow g (!(inp.hall h)) p.1 p.2

theorem homingRows_cons {g : Config} {h : Hand} {p q : Calibration × Sequencer} {inp : Inputs} (rest : List Inputs)
    (hr : cadvRow g (!(inp.hall h)) p.1 p.2 = .ok q) :
    homingRows g h p (inp :: rest) = homingRows g h q rest := by
  rw [homingRows, List.foldlM_cons, hr]
  rfl

theorem homingRows_append {g : Config} {h : Hand} {p q : Calibration × Sequencer} {inputs : List Inputs}
    (rest : List Inputs) (hr : homingRows g h p inputs = .ok q) :
    homingRows g h p (inputs ++ rest) = homingRows g h q rest := by
  rw [homingRows, List.foldlM_append, ← homingRows, hr]
  rfl

/-- `CADV` under fresh inputs, from its row. -/
theorem execAt_cadv_of_row {s : State} {h : Hand} {inp : Inputs} {p : Calibration × Sequencer}
    (hr : cadvRow s.cfg (!(inp.hall h)) (s.cal h) (s.seq h) = .ok p) :
    ∃ t, execAt (.cadv h) inp s = .next t ∧ t.cfg = s.cfg ∧ (t.cal h, t.seq h) = p ∧
      t.resp = some { status := .ok, value := doneValue p.1 } :=
  ⟨_, exec_cadv_of_row (by simpa [State.inField] using hr), by simp, by simp, rfl⟩

/-- A homing run of which no call is refused leaves the hand as its rows do. -/
theorem homingRun_of_rows {h : Hand} {p : Calibration × Sequencer} (inputs : List Inputs) :
    ∀ {s : State}, homingRows s.cfg h (s.cal h, s.seq h) inputs = .ok p →
      ∃ t, homingRun h s inputs = some t ∧ t.cfg = s.cfg ∧ (t.cal h, t.seq h) = p := by
  induction inputs with
  | nil =>
    rintro s hr
    cases hr
    exact ⟨s, rfl, rfl, rfl⟩
  | cons inp rest ih =>
    intro s hr
    cases hrow : cadvRow s.cfg (!(inp.hall h)) (s.cal h) (s.seq h) with
    | error e =>
      rw [homingRows, List.foldlM_cons, hrow] at hr
      cases hr
    | ok q =>
      rw [homingRows_cons rest hrow] at hr
      obtain ⟨u, hu, hucfg, hureg, _⟩ := execAt_cadv_of_row hrow
      obtain ⟨t, ht, htcfg, htreg⟩ := ih (s := u) (by rwa [hucfg, hureg])
      exact ⟨t, by rwa [homingRun, hu], htcfg.trans hucfg, htreg⟩

/-- Inside the field every call is a counted forward step, as long as the counter holds it (44 R175). -/
theorem homingRows_inside {g : Config} {h : Hand} (inside : List Inputs) :
    ∀ {k : Calibration} {m : Sequencer}, k.phase = .inField → (∀ inp ∈ inside, inp.hall h = false) →
      k.stepCount + inside.length ≤ countMax g →
      homingRows g h (k, m) inside =
        .ok ({ k with stepCount := k.stepCount + inside.length }, (Sequencer.stepForward g)^[inside.length] m) := by
  induction inside with
  | nil => intros; rfl
  | cons inp rest ih =>
    intro k m hp hin hc
    obtain ⟨hinp, hrest⟩ := List.forall_mem_cons.mp hin
    rw [List.length_cons] at hc ⊢
    have hrow : cadvRow g (!(inp.hall h)) k m = _ :=
      (cadvRow_eq_countForward (.inr ⟨hp, by simp [hinp]⟩)).trans (cadvCountForward_of_ne (by omega))
    rw [homingRows_cons rest hrow, ih (k := { k with stepCount := k.stepCount + 1 }) hp hrest (by simp only; omega),
      Function.iterate_succ_apply, Nat.add_right_comm, Nat.add_assoc]

/-- While the count lasts, every call of Centering is a backward step (44 R176). -/
theorem homingRows_centering {g : Config} {h : Hand} (back : List Inputs) :
    ∀ {k : Calibration} {m : Sequencer}, k.phase = .centering → back.length ≤ k.stepCount →
      homingRows g h (k, m) back =
        .ok ({ k with stepCount := k.stepCount - back.length }, (Sequencer.stepBackward g)^[back.length] m) := by
  induction back with
  | nil => intros; rfl
  | cons inp rest ih =>
    intro k m hp hc
    rw [List.length_cons] at hc ⊢
    have hrow : cadvRow g (!(inp.hall h)) k m = _ := cadvRow_countBackward (.inr hp) (by omega)
    rw [homingRows_cons rest hrow, ih (k := { k with stepCount := k.stepCount - 1 }) hp (by simp only; omega),
      Function.iterate_succ_apply, Nat.sub_sub, Nat.add_comm 1]

/-- 44 R177: a field `w` positions wide is measured by `w` forward steps, of which half are taken back. -/
theorem homingRows_crossing {g : Config} {h : Hand} {k : Calibration} {m : Sequencer} {inside back : List Inputs}
    {out : Inputs} (hp : k.phase = .inField) (h0 : k.stepCount = 0) (hw : inside.length ≤ countMax g)
    (hin : ∀ inp ∈ inside, inp.hall h = false) (hout : out.hall h = true) (hb : back.length = inside.length / 2) :
    homingRows g h (k, m) (inside ++ out :: back) =
      .ok ({ k with stepCount := 0, phase := .centering },
        (Sequencer.stepBackward g)^[back.length] ((Sequencer.stepForward g)^[inside.length] m)) := by
  rw [homingRows_append _ (homingRows_inside inside hp hin (by omega)),
    homingRows_cons back (cadvRow_inField_left hp (by simp [hout])),
    homingRows_centering back rfl (by simp only; omega)]
  simp [h0, hb]

/-! ### Steps repeated -/

section
variable {c : Config}

theorem succPosition_iterate (n p : Nat) :
    (succPosition c)^[n] (p % c.stepsPerRev) = (p + n) % c.stepsPerRev := by
  induction n with
  | zero => rfl
  | succ n ih => rw [Function.iterate_succ_apply', ih, succPosition, Nat.mod_add_mod, Nat.add_assoc]

theorem predPosition_iterate (hS : 0 < c.stepsPerRev) (n p : Nat) :
    (predPosition c)^[n] ((p + n) % c.stepsPerRev) = p % c.stepsPerRev := by
  induction n with
  | zero => rfl
  | succ n ih =>
    have hstep : predPosition c ((p + (n + 1)) % c.stepsPerRev) = (p + n) % c.stepsPerRev := by
      rw [predPosition, Nat.mod_add_mod, show p + (n + 1) + (c.stepsPerRev - 1) = p + n + c.stepsPerRev by omega,
        Nat.add_mod_right]
    rw [Function.iterate_succ_apply, hstep, ih]

theorem Sequencer.stepForward_iterate_position (n : Nat) (m : Sequencer) :
    ((Sequencer.stepForward c)^[n] m).position = (succPosition c)^[n] m.position :=
  Function.Semiconj.iterate_right (f := Sequencer.position) (fun _ => rfl) n m

theorem Sequencer.stepBackward_iterate_position (n : Nat) (m : Sequencer) :
    ((Sequencer.stepBackward c)^[n] m).position = (predPosition c)^[n] m.position :=
  Function.Semiconj.iterate_right (f := Sequencer.position) (fun _ => rfl) n m

theorem Sequencer.stepForward_iterate_commutationPhase (n : Nat) (m : Sequencer) :
    ((Sequencer.stepForward c)^[n] m).commutationPhase = (nextPhase c)^[n] m.commutationPhase :=
  Function.Semiconj.iterate_right (f := Sequencer.commutationPhase) (fun _ => rfl) n m

theorem Sequencer.stepBackward_iterate_commutationPhase (n : Nat) (m : Sequencer) :
    ((Sequencer.stepBackward c)^[n] m).commutationPhase = (prevPhase c)^[n] m.commutationPhase :=
  Function.Semiconj.iterate_right (f := Sequencer.commutationPhase) (fun _ => rfl) n m

/-- `w` steps forward and `b` of them back. -/
theorem predPosition_iterate_succPosition_iterate {p w b : Nat} (hp : p < c.stepsPerRev) (hb : b ≤ w) :
    (predPosition c)^[b] ((succPosition c)^[w] p) = (p + (w - b)) % c.stepsPerRev := by
  have hfwd := succPosition_iterate (c := c) w p
  rw [Nat.mod_eq_of_lt hp, show p + w = p + (w - b) + b by omega] at hfwd
  rw [hfwd, predPosition_iterate (by omega)]

end

/-! ### The paths of the drift check -/

section
variable {s : State} {h : Hand}

theorem exec_cdrift_of_check {p : Calibration × Sequencer}
    (hr : driftCheck s.cfg (s.inField h) (s.cal h) (s.seq h) = .ok p) :
    exec (.cdrift h) s = .next ((s.withHand h p).respond .ok 0) := by
  simp [exec, execCdrift, hr]

theorem exec_cdrift_of_refused {e : Status}
    (hr : driftCheck s.cfg (s.inField h) (s.cal h) (s.seq h) = .error e) :
    exec (.cdrift h) s = .next (s.respond e 0) := by
  simp [exec, execCdrift, hr]

end

section
variable {g : Config} {inField : Bool} {k : Calibration} {m : Sequencer}

theorem driftCheck_no_transition (hsame : inField = k.trackingInField) : driftCheck g inField k m = .ok (k, m) := by
  subst hsame
  cases ht : k.trackingInField <;> simp [driftCheck, ht]

theorem driftCheck_entering (hin : inField = true) (ht : k.trackingInField = false) :
    driftCheck g inField k m =
      .ok ({ k with enterPosition := m.position, enterDirection := m.lastDirection, trackingInField := true }, m) := by
  simp [driftCheck, hin, ht]

theorem driftCheck_leaving (hout : inField = false) (ht : k.trackingInField = true) :
    driftCheck g inField k m = driftLeave g k m := by
  simp [driftCheck, hout, ht]

theorem driftLeave_reversed (hd : k.enterDirection ≠ m.lastDirection) :
    driftLeave g k m = .ok ({ k with trackingInField := false }, m) := if_pos hd

theorem driftLeave_ignored (hd : k.enterDirection = m.lastDirection) (hi : k.ignoreNextField = true) :
    driftLeave g k m = .ok ({ k with trackingInField := false, ignoreNextField := false }, m) := by
  simp [driftLeave, hd, hi]

theorem driftLeave_measured (hd : k.enterDirection = m.lastDirection) (hi : k.ignoreNextField = false) :
    driftLeave g k m = driftMeasure g { k with trackingInField := false } m := by
  simp [driftLeave, hd, hi]

/-! The measurement, with the quantities it computes named (44 R180). -/

variable {width target off : Nat} {d : Direction}
  (hwidth : width = diff g k.enterPosition m.position k.enterDirection)
  (htarget : target = flp g width k.enterDirection) (hd : d = sdir g m.position target)
  (hoff : off = diff g m.position target d)

include hwidth htarget hd hoff

theorem driftMeasure_below
    (hb : width < g.minWidthForRecalibration ∨ off < g.minStepsOffForRecalibration) :
    driftMeasure g k m = .ok (k, m) := by
  subst hwidth htarget hd hoff
  rw [driftMeasure]
  split_ifs with hw ho
  · rfl
  · rfl
  · exact absurd hb (not_or.mpr ⟨hw, ho⟩)

theorem driftMeasure_above (hw : g.minWidthForRecalibration ≤ width) (ho : g.minStepsOffForRecalibration ≤ off) :
    driftMeasure g k m =
      (m.recalibrate g target (off / 2) d).map fun m' => ({ k with ignoreNextField := true }, m') := by
  subst hwidth htarget hd hoff
  rw [driftMeasure, if_neg (Nat.not_lt.mpr hw), if_neg (Nat.not_lt.mpr ho)]
  cases Sequencer.recalibrate .. <;> rfl

end

/-! ### The correction -/

section
variable {c : Config}

/-- 44 R181 (f): a field at least two positions wide gives a target that is a position. -/
theorem flp_lt {width : Nat} (hw2 : 2 ≤ width) (hw : width < c.stepsPerRev) (d : Direction) :
    flp c width d < c.stepsPerRev := by
  cases d <;> simp only [flp] <;> omega

/-- The shortest way is at most half the ring (40 R107), from a position to itself too. -/
theorem diff_sdir_le_half {p q : Nat} (hp : p < c.stepsPerRev) (hq : q < c.stepsPerRev) :
    diff c p q (sdir c p q) ≤ c.stepsPerRev / 2 := by
  rcases eq_or_ne p q with rfl | hne
  · simp
  · obtain ⟨_, _, hhalf⟩ := shortestDirectionIsShortest c p q hp hq hne
    exact hhalf

/-- `RECAL` on the sequencer, its operands in range (41 R122). -/
theorem Sequencer.recalibrate_of_lt {target off : Nat} (d : Direction) (m : Sequencer) (ht : target < c.stepsPerRev)
    (ho : off < c.stepsPerRev) :
    m.recalibrate c target off d =
      if m.plannedSteps + signedSteps d off > planMax c ∨ m.plannedSteps + signedSteps d off < planMin c then
        .error .planOverflow
      else .ok { m with
        plannedSteps := m.plannedSteps + signedSteps d off, position := recalPosition c target off d } := by
  simp only [Sequencer.recalibrate, Sequencer.addSteps, inRing_eq_true.mpr ht, inRing_eq_true.mpr ho, Bool.and_self,
    if_true]
  split_ifs <;> rfl

theorem signedSteps_eq_ite (d : Direction) (n : Nat) :
    signedSteps d n = if d = .forward then (n : Int) else -(n : Int) := by
  cases d <;> rfl

theorem recalPosition_eq_toNat {target off : Nat} (ho : off ≤ c.stepsPerRev) (d : Direction) :
    recalPosition c target off d =
      (if d = .forward then ((target : Int) - off) % c.stepsPerRev
        else ((target : Int) + off) % c.stepsPerRev).toNat := by
  rw [← Int.toNat_natCast (recalPosition c target off d), recalPosition_cast ho]
  cases d <;> simp [signedSteps]

end

end Sys2Proof.Machine

open Sys2Proof Sys2Proof.Machine

/-- Settles O40: the run's rows take the hand `w` steps forward and `w / 2` back, and the next row sets the origin. -/
theorem homingCentersOnTheField : Obligations.HomingCentersOnTheField := by
  intro s h w inside back out last hs hp h0 hw hlen hin hout hb
  subst hlen
  obtain ⟨_, hseq, _⟩ := s.inv_iff.mp hs
  obtain ⟨hpos, _⟩ := hseq h
  obtain ⟨t, hrun, hcfg, hreg⟩ :=
    homingRun_of_rows (inside ++ out :: back) (homingRows_crossing (m := s.seq h) hp h0 hw hin hout hb)
  obtain ⟨hcal, hm⟩ := Prod.mk.inj hreg
  obtain ⟨u, hlast, _, hureg, hresp⟩ :=
    execAt_cadv_of_row (inp := last) (cadvRow_centering_done (k := t.cal h) (by rw [hcal]) (by rw [hcal]))
  obtain ⟨hucal, hum⟩ := Prod.mk.inj hureg
  refine ⟨t, u, hrun, ?position, hlast, hresp, ?registers⟩
  case position =>
    rw [hm, Sequencer.stepBackward_iterate_position, Sequencer.stepForward_iterate_position, hb,
      predPosition_iterate_succPosition_iterate hpos (Nat.div_le_self ..)]
  case registers =>
    simp [hucal, hum, hm, hb, Sequencer.stepBackward_iterate_commutationPhase,
      Sequencer.stepForward_iterate_commutationPhase]

/-- Settles O39: a row that is performed answers by the phase after it; a refused one is a step at the largest count. -/
theorem cadvReturnsOneExactlyWhenCalibrated : Obligations.CadvReturnsOneExactlyWhenCalibrated := by
  intro s h
  cases hr : cadvRow s.cfg (s.inField h) (s.cal h) (s.seq h) with
  | ok p =>
    refine ⟨_, exec_cadv_of_row hr, fun hp => ?_, .inl (by simp [doneValue])⟩
    cases (cadvRow_calibrated hp).symm.trans hr
    simp [doneValue, hp]
  | error e =>
    obtain ⟨rfl, hc, hp⟩ := cadvRow_error hr
    exact ⟨_, exec_cadv_of_refused hr, fun hcal => by simp [hcal] at hp, .inr ⟨rfl, hc, hp⟩⟩

/-- Settles O42, path by path. -/
theorem driftCheckWithoutCorrection : Obligations.DriftCheckWithoutCorrection := by
  rintro s h k m width target off rfl rfl hwidth htarget hoff
  refine ⟨fun hsame => ?_, fun hlow ht => ?_, fun hhigh ht hrev => ?_, fun hhigh ht hd hi => ?_,
    fun hhigh ht hd hi hbelow => ?_⟩
  · have hin : s.inField h = (s.cal h).trackingInField := by simp [State.inField, hsame]
    simp [exec_cdrift_of_check (driftCheck_no_transition hin)]
  · simp [exec_cdrift_of_check (driftCheck_entering (State.inField_of_low hlow) ht)]
  all_goals have hleave := driftCheck_leaving (g := s.cfg) (m := s.seq h) (State.inField_of_high hhigh) ht
  · simp [exec_cdrift_of_check (hleave.trans (driftLeave_reversed hrev))]
  · simp [exec_cdrift_of_check (hleave.trans (driftLeave_ignored hd hi))]
  · have hmeasure := hleave.trans (driftLeave_measured hd hi)
    simp [exec_cdrift_of_check (hmeasure.trans (driftMeasure_below hwidth htarget rfl hoff hbelow))]

/-- Settles O43: the measured target and half offset are in range, so the `RECAL` is refused for overflow only. -/
theorem driftCheckCorrectsHalfTheOffset : Obligations.DriftCheckCorrectsHalfTheOffset := by
  rintro s h k m width target off d p q hs rfl rfl hwidth htarget hd hoff hhigh ht hdir hi hw ho hp hq
  obtain ⟨hcfg, hseq, hcal, _⟩ := s.inv_iff.mp hs
  obtain ⟨hpos, _⟩ := hseq h
  obtain ⟨_, henter⟩ := hcal h
  obtain ⟨_, _, _, _, _, _, hmin⟩ := hcfg
  have hwlt : width < s.cfg.stepsPerRev := hwidth ▸ diff_lt henter hpos _
  have htlt : target < s.cfg.stepsPerRev := htarget ▸ flp_lt (hmin.trans hw) hwlt _
  have hhalf : off ≤ s.cfg.stepsPerRev / 2 := by
    rw [hoff, hd]
    exact diff_sdir_le_half hpos htlt
  have holt : off / 2 < s.cfg.stepsPerRev := by omega
  refine ⟨htlt, by omega, ?_⟩
  rw [← signedSteps_eq_ite] at hp
  have hcheck := ((driftCheck_leaving (State.inField_of_high hhigh) ht).trans (driftLeave_measured hdir hi)).trans
    (driftMeasure_above hwidth htarget hd hoff hw ho)
  rw [Sequencer.recalibrate_of_lt d _ htlt holt, ← hp, recalPosition_eq_toNat holt.le, ← hq] at hcheck
  split_ifs at hcheck ⊢
  · exact exec_cdrift_of_refused hcheck
  · exact exec_cdrift_of_check hcheck

/-- Settles O34: the controller's restart, and a second one, which writes count and phase again. -/
theorem cstartRestartsHoming : Obligations.CstartRestartsHoming := by
  rintro s t h rfl
  refine ⟨exec_cstart s h, ?_⟩
  simp [exec_cstart, Calibration.start]

/-- Settles O35: the two rows of LeaveField. -/
theorem cadvLeavesTheField : Obligations.CadvLeavesTheField := by
  intro s h hp
  refine ⟨fun h0 => ?_, exec_cadv_countBackward (.inl hp)⟩
  simp [exec_cadv_of_row (cadvRow_leaveField_done hp h0), doneValue]

/-- Settles O36: the rows of FindField. -/
theorem cadvFindsTheField : Obligations.CadvFindsTheField := by
  intro s h hp
  refine ⟨fun hl hc => ?_, fun hl hc => ?_,
    fun hl => exec_cadv_countOverflow (.inl ⟨hp, State.inField_of_high hl⟩),
    fun hl => exec_cadv_countForward (.inl ⟨hp, State.inField_of_high hl⟩)⟩
  · simp [exec_cadv_of_row (cadvRow_findField_tooSoon hp (State.inField_of_low hl) hc), doneValue]
  · simp [exec_cadv_of_row (cadvRow_findField_entered hp (State.inField_of_low hl) hc), doneValue]

/-- Settles O37: the rows of InField. -/
theorem cadvMeasuresTheField : Obligations.CadvMeasuresTheField := by
  intro s h hp
  refine ⟨fun hl => ?_, fun hl => exec_cadv_countOverflow (.inr ⟨hp, State.inField_of_low hl⟩),
    fun hl => exec_cadv_countForward (.inr ⟨hp, State.inField_of_low hl⟩)⟩
  simp [exec_cadv_of_row (cadvRow_inField_left hp (State.inField_of_high hl)), doneValue]

/-- Settles O38: the two rows of Centering. -/
theorem cadvCentersAndSetsTheOrigin : Obligations.CadvCentersAndSetsTheOrigin := by
  intro s h hp
  refine ⟨fun h0 => ⟨_, rstoRebasesTheOrigin s h, ?_⟩, exec_cadv_countBackward (.inr hp)⟩
  rw [exec_cadv_of_row (cadvRow_centering_done hp h0), State.withSeq_respond_withCal_respond]
  rfl

end

section
/-! PROOFS for 60_exceptions: refusals (60 R190, R192) and the daisy chain (R209). No instruction stops the machine: a
command ends as an answer, a bus word as the end of its dispatch, a sample as a next state. A sample in a chain is a sample
of one node (`sampleDetectsTheRisingEdge`) whose pins are the outbound pins of the node before it. -/

namespace Sys2Proof.Machine

/-! ### Every instruction ends -/

theorem State.answer_exists_next (s : State) (v : Nat) (r : Except Status State) : ∃ t, s.answer v r = .next t := by
  cases r <;> exact ⟨_, rfl⟩

theorem State.settle_exists_next (s : State) (r : Except Status State) : ∃ t, s.settle r = .next t := by
  cases r <;> exact ⟨_, rfl⟩

/-- An answer that is not `OK` has value 0 and comes with nothing written (60 R192). -/
theorem State.answer_refusal_writes_nothing {s t : State} {v : Nat} {r : Except Status State}
    (ht : s.answer v r = .next t) :
    ∃ q, t.resp = some q ∧ (q.status ≠ .ok → q.value = 0 ∧ t = { s with resp := some q }) := by
  rcases State.answer_eq_next.mp ht with ⟨u, _, rfl⟩ | ⟨e, _, rfl⟩
  · exact ⟨_, u.respond_resp .ok v, fun hne => absurd rfl hne⟩
  · exact ⟨_, s.respond_resp e 0, fun _ => ⟨rfl, rfl⟩⟩

/-- Every command of every state is an answer, also outside the ranges that `exec_eq_answer` asks for. -/
theorem exec_isAnswer {i : Instr} (s : State) (hc : i.isCommand = true) : ∃ v r, exec i s = s.answer v r := by
  cases hh : Instr.hand? i with
  | some h =>
    rw [exec_eq_finishHand hh]
    cases handOutcome i s.cfg s.inp (s.cal h) (s.seq h) with
    | ok p => exact ⟨p.1, .ok (s.withHand h p.2), rfl⟩
    | error e => exact ⟨0, .error e, rfl⟩
  | none =>
    cases i <;> simp only [Instr.hand?, Instr.isCommand, Bool.false_eq_true, reduceCtorEq] at hh hc
    case diff | flp | sdir =>
      simp only [exec, execDiff, execFlp, execSdir]
      split <;> exact ⟨_, _, rfl⟩
    case ticki | tickp => exact ⟨0, .ok _, rfl⟩
    case drain => exact ⟨drainValue s.mbx, s.drain, rfl⟩

/-- No instruction of any state faults or is left without a meaning (60 R190). -/
theorem exec_exists_next (i : Instr) (s : State) : ∃ t, exec i s = .next t := by
  cases hc : i.isCommand with
  | true =>
    obtain ⟨v, r, he⟩ := exec_isAnswer s hc
    rw [he]
    exact s.answer_exists_next v r
  | false =>
    cases i <;> simp only [Instr.isCommand, Bool.true_eq_false] at hc
    case bmovHb | bmovHf | bmovMb | bmovMf | bmovHbMb | bmovHfMb | bmovHbMf | bmovHfMf =>
      exact s.settle_exists_next _
    all_goals exact ⟨_, rfl⟩

/-! ### A hop of the chain -/

theorem State.outPins_clock (s : State) : s.outPins.getLsbD 4 = s.rly.clockLineHigh :=
  sampleClk_packSample s.outClk s.rly.outData

theorem State.outPins_data (s : State) : s.outPins.extractLsb' 0 4 = s.rly.outData :=
  sampleData_packSample s.outClk s.rly.outData

/-- What an edge leaves in the mailbox and on the outbound pins: latched, or forwarded (42 R133). -/
theorem exec_sampleEdge_latch_or_forward {s t : State} {w : BusWord} (ht : exec (.sampleEdge w) s = .next t) :
    (s.rly.relaying = false → t.mbx = { pending := true, data := w }) ∧
    (s.rly.relaying = true → t.mbx = s.mbx ∧ t.rly.outData = w ∧ t.rly.clockLineHigh = true) := by
  cases (exec_sampleEdge s w).symm.trans ht
  rcases s.edge_cases w with ⟨hrel, he⟩ | ⟨hidle, he⟩
  · simp [hrel, he]
  · simp [hidle, he]

/-- A sample at node `k + 1` is that node's own step on the outbound pins of node `k`, put in its place (60 R209). -/
theorem chainStep_sample {nodes : List State} {k : Nat} {up n t : State} {inp : Inputs} (v : PinSample)
    (hup : nodes[k]? = some up) (hn : nodes[k + 1]? = some n)
    (ht : step (n.present { rst := false, inputs := inp, arrival := .sample up.outPins }) = .next t) :
    chainStep nodes (k + 1) { rst := false, inputs := inp, arrival := .sample v } = .next (nodes.set (k + 1) t) := by
  simp [chainStep, chainEvent, chainPins, hup, hn, ht]

end Sys2Proof.Machine

open Sys2Proof Sys2Proof.Machine

/-- Settles O50: a command is an answer, and an answer that is not `OK` is a refusal. -/
theorem refusedCommandsWriteNothing : Obligations.RefusedCommandsWriteNothing := by
  intro i s hc
  obtain ⟨v, r, he⟩ := exec_isAnswer s hc
  obtain ⟨t, ht⟩ := s.answer_exists_next v r
  obtain ⟨q, hq, hrefused⟩ := State.answer_refusal_writes_nothing ht
  exact ⟨t, q, he.trans ht, hq, hrefused⟩

/-- Settles O51: the one case of a step that is not a next state outright is an instruction, and each of them ends. -/
theorem everyStepGivesANextState : Obligations.EveryStepGivesANextState := by
  intro s
  rcases step_cases s with ⟨_, hs⟩ | ⟨e, rest, _, ⟨_, hs⟩ | ⟨_, i, _, hs⟩ | ⟨_, _, _, hs⟩⟩
  · exact ⟨_, hs⟩
  · exact ⟨_, hs⟩
  · obtain ⟨t, ht⟩ := exec_exists_next i (s.beginEvent e rest)
    exact ⟨t, hs.trans ht⟩
  · exact ⟨_, hs⟩

/-- Settles O55: the edge detector of node `k + 1` on the pins of node `k`, an edge by the handler's two branches. -/
theorem chainSamplesReadTheNodeBefore : Obligations.ChainSamplesReadTheNodeBefore := by
  intro nodes k up n inp v hup hn
  obtain ⟨t, ht, hclk, hedge, hpass⟩ := sampleDetectsTheRisingEdge
    (n.present { rst := false, inputs := inp, arrival := .sample up.outPins }) inp up.outPins n.events rfl
  rw [State.outPins_clock] at hclk hedge hpass
  rw [State.outPins_data] at hedge
  refine ⟨t, chainStep_sample v hup hn ht, hclk, fun hrise => ?_, fun hno => ?_⟩
  · simpa using exec_sampleEdge_latch_or_forward (hedge hrise)
  · rw [hpass hno]
    exact ⟨rfl, rfl⟩

end

section
/-! PROOFS for 70_reset_and_hazards: a step under `rst` (70 R215) and what a backward crossing reads (R239). In the frame
homing sets up, a field of width `w` covers `-(w - w/2)` to `w/2 - 1` (44 R177), so a backward crossing enters at reading
`w/2 - 1` and is first outside at reading `S - (w - w/2) - 1`. -/

namespace Sys2Proof.Machine

theorem step_of_rst {s : State} {e : Event} {rest : List Event} (hev : s.events = e :: rest) (hr : e.rst = true) :
    step s = .next (s.beginEvent e rest).resetNode := by
  simp [step, hev, hr]

section
variable {c : Config} {w : Nat}

/-- The way from the entry back to the first reading outside passes 0, so the forward walk that mirrors it wraps. -/
theorem diff_backward_crossing (hw : 2 ≤ w) (hS : w < c.stepsPerRev) :
    diff c (w / 2 - 1) (c.stepsPerRev - (w - w / 2) - 1) .backward = w := by
  have hwrap : w / 2 - 1 < c.stepsPerRev - (w - w / 2) - 1 := by omega
  rw [diff_backward, diff_forward_of_lt hwrap]
  omega

/-- The first reading outside lies before `flp(w, Backward) = S - w/2`, by one more than the two halves of `w` differ. -/
theorem diff_outside_flp_backward (hS : w < c.stepsPerRev) :
    diff c (c.stepsPerRev - (w - w / 2) - 1) (flp c w .backward) .forward = 1 + w % 2 := by
  have hbefore : c.stepsPerRev - (w - w / 2) - 1 ≤ c.stepsPerRev - w / 2 := by omega
  rw [flp, diff_forward_of_le hbefore]
  omega

end

end Sys2Proof.Machine

open Sys2Proof Sys2Proof.Machine

/-- Settles O7: the residual is at most 2 steps forward, less than half of a ring of more than 4 positions (40 R107). -/
theorem backwardCrossingResidual : Obligations.BackwardCrossingResidual := by
  intro c w hw hS
  have hwS : w < c.stepsPerRev := by omega
  have hres := diff_outside_flp_backward hwS
  have houtside : c.stepsPerRev - (w - w / 2) - 1 < c.stepsPerRev := by omega
  have hne : c.stepsPerRev - (w - w / 2) - 1 ≠ flp c w .backward := by
    intro heq
    rw [← heq, diff_self] at hres
    omega
  obtain ⟨hsdir, _, _⟩ := shortestDirectionIsShortest c _ _ houtside (flp_lt hw hwS .backward) hne
  exact ⟨diff_backward_crossing hw hwS, hsdir.mpr (by omega), hres⟩

/-- Settles O45: under `rst` the step is `resetNode`, whatever the event's packet is. -/
theorem rstTakesTheNodeToReset : Obligations.RstTakesTheNodeToReset := by
  intro s e rest hev hr
  exact ⟨_, step_of_rst hev hr, rfl, rfl, rfl, rfl, rfl, rfl, rfl, rfl, rfl⟩

end
